-- ==== Sys2Proof/Word.lean ====
section
/-! DEFINITION. The byte of a command unit, the line terminator and the length of the waveform table. -/

namespace Sys2Proof

/-- One byte of the command input (30_encoding R70). -/
abbrev Byte := BitVec 8

/-- LF, the byte that ends a line of the command input (30_encoding R71). -/
def lineFeed : Byte := 0x0A

/-- TABLE_LEN (00_scope R6): the number of LUT entries. -/
abbrev tableLen : Nat := 100

end Sys2Proof
end

