-- ==== Sys2Proof/Config.lean ====
section
/-! DEFINITION. The parameters of 00_scope R7 as one record of plain data, the logical pin names of 10_state R39,
and the free values (41_audio R164, 42_gpio R198). -/

namespace Sys2Proof

/-- The two motors (00_scope R14). -/
inductive Side where
  | left
  | right
  deriving DecidableEq, Repr, Inhabited

/-- A physical pin: a port and an offset in it (10_state R35). -/
structure PhysPin where
  port : Nat
  offset : Nat
  deriving DecidableEq, Repr, Inhabited

/-- The logical pin names of 10_state R39: the seven the spec requires, and the further names a PinName set may hold
(log 11). -/
inductive PinName where
  | motorDirA (side : Side)
  | motorDirB (side : Side)
  | motorPwm (side : Side)
  | dacOut
  | other (n : Nat)
  deriving DecidableEq, Repr, Inhabited

/-- PIN_MAP (10_state R39): the physical pin of each logical pin. It need not be injective. -/
structure PinMap where
  leftDirA : PhysPin
  leftDirB : PhysPin
  rightDirA : PhysPin
  rightDirB : PhysPin
  leftPwm : PhysPin
  rightPwm : PhysPin
  dacOut : PhysPin
  others : List PhysPin
  deriving DecidableEq, Repr, Inhabited

/-- The physical pin of `MOTOR_<s>_DIR_A`. -/
def PinMap.dirA (m : PinMap) : Side → PhysPin
  | .left => m.leftDirA
  | .right => m.rightDirA

/-- The physical pin of `MOTOR_<s>_DIR_B`. -/
def PinMap.dirB (m : PinMap) : Side → PhysPin
  | .left => m.leftDirB
  | .right => m.rightDirB

/-- The physical pin of `MOTOR_<s>_PWM`. -/
def PinMap.pwm (m : PinMap) : Side → PhysPin
  | .left => m.leftPwm
  | .right => m.rightPwm

/-- PIN_MAP as a partial map: `none` for an identifier that is no PinName of this machine (30_encoding R81). -/
def PinMap.lookup (m : PinMap) : PinName → Option PhysPin
  | .motorDirA s => some (m.dirA s)
  | .motorDirB s => some (m.dirB s)
  | .motorPwm s => some (m.pwm s)
  | .dacOut => some m.dacOut
  | .other n => m.others[n]?

/-- Every physical pin of the table. -/
def PinMap.all (m : PinMap) : List PhysPin :=
  [m.leftDirA, m.leftDirB, m.rightDirA, m.rightDirB, m.leftPwm, m.rightPwm, m.dacOut] ++ m.others

/-- The parameters of 00_scope R7, but ARM_START, which is drawn at each arm (`Config.armStart`). -/
structure Config where
  /-- FULL_SCALE -/
  fullScale : Nat
  /-- LUT_TIE_0 -/
  lutTie0 : Nat
  /-- LUT_TIE_50 -/
  lutTie50 : Nat
  /-- DAC_BITS -/
  dacBits : Nat
  /-- SAMPLE_BITS -/
  sampleBits : Nat
  /-- TIMER_CLK_HZ -/
  timerClkHz : Nat
  /-- TIMER_WIDTH -/
  timerWidth : Nat
  /-- NUM_PORTS -/
  numPorts : Nat
  /-- PINS_PER_PORT -/
  pinsPerPort : Nat
  /-- PIN_MAP -/
  pinMap : PinMap
  /-- AF_PWM -/
  afPwm : Nat
  deriving DecidableEq, Repr, Inhabited

/-- A tie value of 00_scope R7: one of the two integers beside FULL_SCALE / 2, for an odd FULL_SCALE. -/
def Config.tieOk (c : Config) (t : Nat) : Bool :=
  decide (c.fullScale % 2 = 1 → t = (c.fullScale - 1) / 2 ∨ t = (c.fullScale + 1) / 2)

/-- A pin of the machine (10_state R35). -/
def Config.pinOk (c : Config) (q : PhysPin) : Bool :=
  decide (q.port < c.numPorts ∧ q.offset < c.pinsPerPort)

/-- The constraints 00_scope R7 puts on the parameters. -/
def Config.wf (c : Config) : Bool :=
  decide (1 ≤ c.fullScale) && c.tieOk c.lutTie0 && c.tieOk c.lutTie50
    && decide (c.fullScale < 2 ^ c.dacBits) && decide (c.fullScale < 2 ^ c.sampleBits)
    && decide (1 ≤ c.timerClkHz) && decide (1 ≤ c.numPorts) && decide (c.afPwm ≤ 15)
    && c.pinMap.all.all c.pinOk

/-- The values the spec's examples and vectors use (00_scope R7, third column; 95_test_vectors P5: all seven pins on
port 0, AF_PWM = 2; the offsets 0 to 6, one port and 1 MHz are illustrations). Tests use it; no rule does. -/
def Config.vectors : Config where
  fullScale := 4095
  lutTie0 := 2048
  lutTie50 := 2048
  dacBits := 12
  sampleBits := 16
  timerClkHz := 1000000
  timerWidth := 16
  numPorts := 1
  pinsPerPort := 16
  pinMap :=
    { leftDirA := ⟨0, 0⟩, leftDirB := ⟨0, 1⟩, rightDirA := ⟨0, 2⟩, rightDirB := ⟨0, 3⟩,
      leftPwm := ⟨0, 4⟩, rightPwm := ⟨0, 5⟩, dacOut := ⟨0, 6⟩, others := [] }
  afPwm := 2

/-- Parameters nothing is known of. -/
opaque Config.unknown : Config

/-- The parameters of the machine `State.reset` starts: any that meet 00_scope R7, nothing else is known of them
(log 1). -/
def Config.board : Config :=
  if Config.unknown.wf then Config.unknown else Config.vectors

/-- ARM_START (41_audio R164), a FREE VALUE: the index the n-th draw gives (log 7). -/
opaque Config.armStart : Nat → Fin tableLen

/-- The input level of the pin read (42_gpio R198), a FREE VALUE: the level the n-th draw gives (log 8). -/
opaque Config.pinLevel : Nat → Bool

end Sys2Proof
end

