-- ==== Sys2Proof/Syntax.lean ====
section
/-! DEFINITION. The operations of the block, one constructor per row of spec/opcode_table.json, and the two formats
that carry them (30_encoding R70). -/

namespace Sys2Proof

/-- A control-operation record (30_encoding R70). `pin` is the number of a pin identifier (log 11); `a` and `b` are
natural numbers, never truncated (R78). -/
structure CtrlRecord where
  sel : Byte
  pin : Nat
  a : Nat
  b : Nat
  deriving DecidableEq, Repr, Inhabited

/-- What the dispatcher decodes: a command unit (without its line terminator, 30_encoding R71) or a CTRL record. -/
inductive Work where
  | unit (bytes : List Byte)
  | ctrl (record : CtrlRecord)
  deriving DecidableEq, Repr

/-- The operations. The first nine come as command units, the others as CTRL records. -/
inductive Instr where
  | drive
  | accelerate
  | brake
  | stop
  | turnLeft
  | turnRight
  | reverse
  | honk
  | unrecognized (bytes : List Byte)
  | gpioMode (pin : PinName) (v : Nat)
  | gpioPull (pin : PinName) (v : Nat)
  | gpioOtype (pin : PinName) (v : Nat)
  | gpioSpeed (pin : PinName) (v : Nat)
  | gpioAf (pin : PinName) (v : Nat)
  | gpioWrite (pin : PinName) (level : Bool)
  | gpioRead (pin : PinName)
  | lutInit
  | dacEnable
  | timClockSet (prescaler reload : Nat)
  | timStart
  | dmaArm
  | dmaDisarm
  | bootDone
  deriving DecidableEq, Repr

end Sys2Proof
end

