-- ==== Sys2Proof/WellFormed.lean ====
section
/-! DEFINITION. Which terms of Instr stand for an operation a decoder can give: pin operands name a pin of the
machine (30_encoding R78, R81), and UNRECOGNIZED holds a unit that is no token (R72, R74). -/

namespace Sys2Proof

/-- The identifier is one of the machine's PinNames (10_state R39). -/
def PinName.isName (c : Config) : PinName → Bool
  | .other n => decide (n < c.pinMap.others.length)
  | _ => true

/-- The codes of the eight letters W, E, S, F, A, D, R, H (30_encoding R73). -/
def tokenCodes : List Byte := [0x57, 0x45, 0x53, 0x46, 0x41, 0x44, 0x52, 0x48]

/-- The unit is one of the eight tokens (30_encoding R72). -/
def isToken : List Byte → Bool
  | [b] => tokenCodes.contains b
  | _ => false

/-- The operation is one a decoder of the machine with parameters `c` can give. -/
def Instr.wellFormed (c : Config) : Instr → Bool
  | .unrecognized u => !isToken u
  | .gpioMode p _ => p.isName c
  | .gpioPull p _ => p.isName c
  | .gpioOtype p _ => p.isName c
  | .gpioSpeed p _ => p.isName c
  | .gpioAf p _ => p.isName c
  | .gpioWrite p _ => p.isName c
  | .gpioRead p => p.isName c
  | .drive => true
  | .accelerate => true
  | .brake => true
  | .stop => true
  | .turnLeft => true
  | .turnRight => true
  | .reverse => true
  | .honk => true
  | .lutInit => true
  | .dacEnable => true
  | .timClockSet _ _ => true
  | .timStart => true
  | .dmaArm => true
  | .dmaDisarm => true
  | .bootDone => true

end Sys2Proof
end

