-- ==== Sys2Proof/Decode.lean ====
section
/-! DEFINITION. The decoder of command units and CTRL records (30_encoding R71 to R81), its refusals by name, the
encoder from the same tables, and the numbering of spec/opcode_table.json. -/

namespace Sys2Proof

/-- The refusals of the decoder (30_encoding R81, 60_exceptions R227). -/
inductive DecodeError where
  /-- BAD_SELECTOR: a selector not in 30_encoding R79 -/
  | badSelector
  /-- BAD_PIN: a pin operand that is no PinName -/
  | badPin
  /-- BAD_WRITE_VALUE: GPIO_WRITE with b neither 0 nor 1 -/
  | badWriteValue
  deriving DecidableEq, Repr

/-- TOKEN_MAP (30_encoding R73): the match is on all eight bits. -/
def tokenOf (op : Byte) : Option Instr :=
  if op = 0x57 then some .drive
  else if op = 0x45 then some .accelerate
  else if op = 0x53 then some .brake
  else if op = 0x46 then some .stop
  else if op = 0x41 then some .turnLeft
  else if op = 0x44 then some .turnRight
  else if op = 0x52 then some .reverse
  else if op = 0x48 then some .honk
  else none

/-- Recognition of a command unit (30_encoding R72): total, every other unit is UNRECOGNIZED. -/
def decodeUnit : List Byte → Instr
  | [op] =>
    match tokenOf op with
    | some i => i
    | none => .unrecognized [op]
  | u => .unrecognized u

/-- The pin identifiers as numbers (log 11): 0 to 6 are the seven names in the order of 10_state R39. -/
def pinId : PinName → Nat
  | .motorDirA .left => 0
  | .motorDirB .left => 1
  | .motorDirA .right => 2
  | .motorDirB .right => 3
  | .motorPwm .left => 4
  | .motorPwm .right => 5
  | .dacOut => 6
  | .other n => n + 7

/-- The PinName a pin identifier stands for, whether or not this machine has it. -/
def pinNameOf : Nat → PinName
  | 0 => .motorDirA .left
  | 1 => .motorDirB .left
  | 2 => .motorDirA .right
  | 3 => .motorDirB .right
  | 4 => .motorPwm .left
  | 5 => .motorPwm .right
  | 6 => .dacOut
  | n + 7 => .other n

/-- The pin operand of a CTRL record: a decoder refuses an identifier that is no PinName (30_encoding R78, R81). -/
def decodePin (c : Config) (id : Nat) : Except DecodeError PinName :=
  if (pinNameOf id).isName c then .ok (pinNameOf id) else .error .badPin

/-- A CTRL operation with a pin operand. -/
def withPin (c : Config) (id : Nat) (f : PinName → Instr) : Except DecodeError Instr :=
  match decodePin c id with
  | .ok p => .ok (f p)
  | .error e => .error e

/-- GPIO_WRITE: the pin operand, then `b ∈ {0, 1}` (30_encoding R81). -/
def decodeWrite (c : Config) (id b : Nat) : Except DecodeError Instr :=
  match decodePin c id with
  | .error e => .error e
  | .ok p => if b = 0 then .ok (.gpioWrite p false) else if b = 1 then .ok (.gpioWrite p true) else .error .badWriteValue

/-- The CTRL selector map (30_encoding R79, R80): the match is on all eight bits; fields an operation does not use are
ignored. -/
def decodeCtrl (c : Config) (r : CtrlRecord) : Except DecodeError Instr :=
  if r.sel = 0x01 then withPin c r.pin (.gpioMode · r.a)
  else if r.sel = 0x02 then withPin c r.pin (.gpioPull · r.a)
  else if r.sel = 0x03 then withPin c r.pin (.gpioOtype · r.a)
  else if r.sel = 0x04 then withPin c r.pin (.gpioSpeed · r.a)
  else if r.sel = 0x05 then withPin c r.pin (.gpioAf · r.a)
  else if r.sel = 0x06 then decodeWrite c r.pin r.b
  else if r.sel = 0x07 then withPin c r.pin .gpioRead
  else if r.sel = 0x10 then .ok .lutInit
  else if r.sel = 0x11 then .ok .dacEnable
  else if r.sel = 0x12 then .ok (.timClockSet r.a r.b)
  else if r.sel = 0x13 then .ok .timStart
  else if r.sel = 0x14 then .ok .dmaArm
  else if r.sel = 0x15 then .ok .dmaDisarm
  else if r.sel = 0x20 then .ok .bootDone
  else .error .badSelector

/-- The decoder of both formats (30_encoding R70). -/
def decodeWork (c : Config) : Work → Except DecodeError Instr
  | .unit u => .ok (decodeUnit u)
  | .ctrl r => decodeCtrl c r

/-! ## The encoder -/

/-- A CTRL record of a pin and a configuration value; the unused `b` is 0. -/
def pinRecord (sel : Byte) (p : PinName) (v : Nat) : Work := .ctrl ⟨sel, pinId p, v, 0⟩

/-- A CTRL record with no operand; the unused fields are 0. -/
def bareRecord (sel : Byte) : Work := .ctrl ⟨sel, 0, 0, 0⟩

/-- The unit or record of an operation (30_encoding R73, R79), its unused fields 0. -/
def encode : Instr → Work
  | .drive => .unit [0x57]
  | .accelerate => .unit [0x45]
  | .brake => .unit [0x53]
  | .stop => .unit [0x46]
  | .turnLeft => .unit [0x41]
  | .turnRight => .unit [0x44]
  | .reverse => .unit [0x52]
  | .honk => .unit [0x48]
  | .unrecognized u => .unit u
  | .gpioMode p v => pinRecord 0x01 p v
  | .gpioPull p v => pinRecord 0x02 p v
  | .gpioOtype p v => pinRecord 0x03 p v
  | .gpioSpeed p v => pinRecord 0x04 p v
  | .gpioAf p v => pinRecord 0x05 p v
  | .gpioWrite p l => .ctrl ⟨0x06, pinId p, 0, if l then 1 else 0⟩
  | .gpioRead p => pinRecord 0x07 p 0
  | .lutInit => bareRecord 0x10
  | .dacEnable => bareRecord 0x11
  | .timClockSet p r => .ctrl ⟨0x12, 0, p, r⟩
  | .timStart => bareRecord 0x13
  | .dmaArm => bareRecord 0x14
  | .dmaDisarm => bareRecord 0x15
  | .bootDone => bareRecord 0x20

/-! ## Framing -/

/-- The units of a byte stream, `cur` being the bytes since the last line terminator: a line ends at the first LF,
which is no part of the unit; what follows the last LF is no unit yet (30_encoding R71). -/
def unitsFrom (cur : List Byte) : List Byte → List (List Byte)
  | [] => []
  | b :: bs => if b = lineFeed then cur :: unitsFrom [] bs else unitsFrom (cur ++ [b]) bs

/-- The command units of a byte stream (30_encoding R71). -/
def unitsOf (bytes : List Byte) : List (List Byte) := unitsFrom [] bytes

/-- A unit on the wire: its bytes and the line terminator (30_encoding R71, R84). -/
def wireOf (unit : List Byte) : List Byte := unit ++ [lineFeed]

/-! ## The numbering of spec/opcode_table.json -/

/-- The byte is one of the fourteen selectors of 30_encoding R79. -/
def isSelector (b : Byte) : Bool :=
  ([0x01, 0x02, 0x03, 0x04, 0x05, 0x06, 0x07, 0x10, 0x11, 0x12, 0x13, 0x14, 0x15, 0x20] : List Byte).contains b

/-- `n` bits of `w` from bit `lo` on. -/
def bitField (w lo n : Nat) : Nat := w / 2 ^ lo % 2 ^ n

/-- The first `n` bytes of `w`, the lowest byte first. -/
def bytesOf (w : Nat) : Nat → List Byte
  | 0 => []
  | n + 1 => BitVec.ofNat 8 w :: bytesOf (w / 256) n

/-- What an instruction with bits `w` of spec/opcode_table.json is laid out as (log 12): a first byte that is a
selector heads a CTRL record (pin in bits 15..8, a in bits 47..16, b in bits 79..48); anything else is a command unit
of `nbits / 8` bytes. Every bit from `nbits` up is 0. -/
def tableWork (nbits w : Nat) : Work :=
  let v := w % 2 ^ nbits
  let sel := BitVec.ofNat 8 v
  if isSelector sel then .ctrl ⟨sel, bitField v 8 8, bitField v 16 32, bitField v 48 32⟩
  else .unit (bytesOf v (nbits / 8))

/-- The operation the decoder reads from bits numbered as spec/opcode_table.json numbers them, for the parameters of
`State.reset`. -/
def decodeTableWord (nbits w : Nat) : Option Instr :=
  match decodeWork Config.board (tableWork nbits w) with
  | .ok i => some i
  | .error _ => none

end Sys2Proof
end

