-- ==== Sys2Proof/Machine/State.lean ====
section
/-! DEFINITION. The state of the block (10_state R20), the environment's data the step reads, the stops, and reset
(70_reset_and_hazards R260). -/

namespace Sys2Proof.Machine

/-- Direction of a motor (00_scope R14, 10_state R21). -/
inductive Dir where
  | forward
  | stopped
  | backward
  deriving DecidableEq, Repr

/-- The dispatcher phase (10_state R26). -/
inductive Phase where
  | boot
  | idle
  | honkBusy
  deriving DecidableEq, Repr

/-- The statuses an operation returns to its caller (60_exceptions R220). -/
inductive Status where
  | ok
  | noTransition
  | invalidConfiguration
  deriving DecidableEq, Repr

/-- The states of the DMA engine (41_audio R162). -/
inductive DmaState where
  | idle
  | armed
  deriving DecidableEq, Repr

/-- The kinds of diagnostics (60_exceptions R224). The block emits the first two; the third stands for the relay's. -/
inductive DiagKind where
  | unrecognizedCommand
  | invalidConfiguration
  | busTransmissionFailure
  deriving DecidableEq, Repr

/-- The fault kinds of 60_exceptions R226. The step that faults records its kind in `State.fault`; `step` answers the
fault from then on, because no agent steps after a fault (R228). Safe: the source gives these situations no behaviour,
and the model makes up none (log 2). -/
inductive Fault where
  /-- GPIO_CLOCK_OFF. Recorded by GPIO_PULL, GPIO_OTYPE, GPIO_SPEED, GPIO_WRITE, GPIO_READ, the motor operations and
  BOOT_DONE when a port clock they need is off (42_gpio R191). Safe. -/
  | gpioClockOff
  /-- LUT_UNINIT. Recorded by DMA_ARM and HONK before LUT_INIT (41_audio R164), and by a transfer with no table, which
  no run reaches (log 15). Safe. -/
  | lutUninit
  /-- TIMER_UNCONFIGURED. Recorded by TIM_START before TIM_CLOCK_SET (41_audio R156), and by a tick with no prescaler or
  reload, which no run reaches (log 15). Safe. -/
  | timerUnconfigured
  deriving DecidableEq, Repr

/-- The refusal reasons of 60_exceptions R227. The step that is refused records its reason in `State.refusal`; `step`
answers the refusal from then on (R228). Safe: the spec gives these operations no meaning (log 2). -/
inductive Refusal where
  /-- An operation with no meaning in the model. No operation of this model raises it. Safe. -/
  | notModelled (mnemonic : String)
  /-- BAD_SELECTOR. Raised when a CTRL record is taken whose selector is not in 30_encoding R79. Safe. -/
  | badSelector
  /-- BAD_PIN. Raised when a CTRL record is taken whose pin operand is no PinName (30_encoding R81). Safe. -/
  | badPin
  /-- BAD_WRITE_VALUE. Raised when a GPIO_WRITE record is taken with b neither 0 nor 1 (30_encoding R81). Safe. -/
  | badWriteValue
  /-- LUT_REINIT. Raised by LUT_INIT when the LUT is already set (41_audio R151). Safe. -/
  | lutReinit
  /-- TIMER_RANGE. Raised by TIM_CLOCK_SET out of range (41_audio R155). Safe. -/
  | timerRange
  /-- BOOT_DONE_TWICE. Raised by BOOT_DONE outside phase BOOT (40_motor R120). Safe. -/
  | bootDoneTwice
  deriving DecidableEq, Repr

/-- A Motor record (10_state R21). -/
structure Motor where
  duty : BitVec 10
  dir : Dir
  deriving DecidableEq, Repr

/-- CarState (10_state R21). -/
structure Car where
  left : Motor
  right : Motor
  deriving DecidableEq, Repr

/-- The PWM duty registers (10_state R24). -/
structure Pwm where
  left : Option (BitVec 10)
  right : Option (BitVec 10)
  deriving DecidableEq, Repr

/-- The timer registers (10_state R31). The widths are parameters, so the values are numbers (log 22). -/
structure Timer where
  en : Bool
  psc : Option Nat
  arr : Option Nat
  pcnt : Nat
  cnt : Nat
  deriving DecidableEq, Repr

/-- The DMA registers (10_state R33). Source, destination and mode are fixed (41_audio R163). -/
structure Dma where
  state : DmaState
  idx : Option (Fin tableLen)
  deriving DecidableEq, Repr

/-- The DAC registers (10_state R34). -/
structure Dac where
  en : Bool
  data : Option Nat
  deriving DecidableEq, Repr

/-- The fields of one physical pin (10_state R35); `none` is the spec's unspecified value. -/
structure PinFields where
  mode : Option (BitVec 2)
  pull : Option (BitVec 2)
  otype : Option (BitVec 1)
  speed : Option (BitVec 2)
  af : Option (BitVec 4)
  out : Option Bool
  deriving DecidableEq, Repr

/-- What an unlisted pin reads as: every field unspecified, the reset value of 10_state R35. -/
def PinFields.fresh : PinFields := ⟨none, none, none, none, none, none⟩

/-- What an operation returns to its caller: a status, with a level for GPIO_READ (60_exceptions R220). -/
structure Reply where
  status : Status
  level : Option Bool
  deriving DecidableEq, Repr

/-- Which agent moves (00_scope R9): the DISPATCHER on the HOST's next unit, on the controller software's next CTRL
record, or at the end of a honk, and the TIMER. -/
inductive Move where
  | unit
  | ctrl
  | honkEnd
  | tick
  deriving DecidableEq, Repr

/-- The machine's state. The fields from `cfg` to `refusal` are the spec's (10_state R20, R39, R41); the others are the
environment's data and the model's own records (INVENTORY.md). -/
structure State where
  /-- the parameters (00_scope R7), PIN_MAP among them; nothing writes them (log 1) -/
  cfg : Config
  car : Car
  pwm : Pwm
  phase : Phase
  lut : Option (Vector Nat tableLen)
  tim : Timer
  dma : Dma
  dac : Dac
  /-- the pins written so far, sorted, no pin listed whose fields are all unspecified (log 23) -/
  gpio : List (PhysPin × PinFields)
  /-- the ports whose clock is enabled, rising (10_state R37; log 23) -/
  clk : List Nat
  diag : List DiagKind
  fault : Option Fault
  /-- the reason of the refusal; the mark `refused` of 10_state R41 is `State.refused` (log 3) -/
  refusal : Option Refusal
  /-- the command units the HOST holds, oldest first (60_exceptions R246; log 6) -/
  hostUnits : List (List Byte)
  /-- the CTRL records the controller software will issue, in order (log 6) -/
  ctrlOps : List CtrlRecord
  /-- which agent moves next (20_memory R60; log 5) -/
  sched : List Move
  /-- how many free values have been drawn (log 9) -/
  draws : Nat
  /-- what the last DISPATCHER step returned to its caller (log 4) -/
  reply : Option Reply
  deriving DecidableEq, Repr

/-- The state after reset of a machine with parameters `c` (70_reset_and_hazards R260). -/
def State.resetWith (c : Config) : State where
  cfg := c
  car := ⟨⟨0, .stopped⟩, ⟨0, .stopped⟩⟩
  pwm := ⟨none, none⟩
  phase := .boot
  lut := none
  tim := ⟨false, none, none, 0, 0⟩
  dma := ⟨.idle, none⟩
  dac := ⟨false, none⟩
  gpio := []
  clk := []
  diag := []
  fault := none
  refusal := none
  hostUnits := []
  ctrlOps := []
  sched := []
  draws := 0
  reply := none

/-- The state after reset (70_reset_and_hazards R260), for parameters nothing is known of but 00_scope R7 (log 1). -/
def State.reset : State := State.resetWith Config.board

/-- The mark `refused` of 10_state R41. -/
def State.refused (s : State) : Bool := s.refusal.isSome

end Sys2Proof.Machine
end

