-- ==== Sys2Proof/Machine/Flags.lean ====
section
/-! DEFINITION. Statuses. The block has no flags (10_state R29): what an operation tells its caller is a status, kept in
no register of the block; the model records it in `State.reply` (log 4). -/

namespace Sys2Proof.Machine

/-- The numeric code of a status (60_exceptions R220). -/
def statusCode : Status → Nat
  | .ok => 0
  | .noTransition => 1
  | .invalidConfiguration => 2

/-- `return st`: the operation ends with status `st` (00_scope R12). -/
def returns (st : Status) (s : State) : State := { s with reply := some ⟨st, none⟩ }

/-- `return (OK, lvl)` of GPIO_READ (42_gpio R198). -/
def returnsLevel (level : Bool) (s : State) : State := { s with reply := some ⟨.ok, some level⟩ }

/-- The step returns no status: UNRECOGNIZED (40_motor R123), the first step of HONK (41_audio R172), and a step that
ends in a fault or a refusal. -/
def returnsNothing (s : State) : State := { s with reply := none }

end Sys2Proof.Machine
end

