-- ==== Sys2Proof/Machine/Ops.lean ====
section
/-! DEFINITION. The named operations over the state: faults, refusals and diagnostics, the GPIO space, the motor record,
output reflection, and the ways a step of the environment changes it. -/

namespace Sys2Proof.Machine

/-! ## Faults, refusals, diagnostics -/

/-- `raise Fault(k)` (00_scope R12): `s` is the state the step found. The kind is recorded, and nothing else of the
block changes (10_state R41, 60_exceptions R226, R232); no agent steps after it (R228). -/
def raise (k : Fault) (s : State) : State := returnsNothing { s with fault := some k }

/-- `refuse(r)` (00_scope R12): the mark is set, and nothing else of the block changes (10_state R41, 60_exceptions
R227, R232); no agent steps after it (R228). -/
def refuse (r : Refusal) (s : State) : State := returnsNothing { s with refusal := some r }

/-- `emit Diag(k)` (60_exceptions R224). -/
def emit (k : DiagKind) (s : State) : State := { s with diag := s.diag ++ [k] }

/-- The end of a step that may fault: `s` is the state the step found. -/
def settle (s : State) : Except Fault State → State
  | .ok t => t
  | .error k => raise k s

/-! ## The GPIO space (20_memory R50) -/

/-- The order of the canonical form: by port, then by offset. -/
def pinLt (p q : PhysPin) : Bool :=
  decide (p.port < q.port ∨ (p.port = q.port ∧ p.offset < q.offset))

/-- The fields of a pin; an unlisted pin reads as its reset value, every field unspecified (10_state R35). -/
def lookupPin : List (PhysPin × PinFields) → PhysPin → PinFields
  | [], _ => PinFields.fresh
  | (q, f) :: rest, p => if p = q then f else lookupPin rest p

/-- Write all fields of a pin, keeping the canonical form. -/
def storePin (p : PhysPin) (f : PinFields) : List (PhysPin × PinFields) → List (PhysPin × PinFields)
  | [] => if f = PinFields.fresh then [] else [(p, f)]
  | (q, g) :: rest =>
    if p = q then (if f = PinFields.fresh then rest else (p, f) :: rest)
    else if pinLt p q then (if f = PinFields.fresh then (q, g) :: rest else (p, f) :: (q, g) :: rest)
    else (q, g) :: storePin p f rest

/-- The canonical form of the pins: strictly rising, no pin listed that reads as an unlisted one. -/
def pinsWf : List (PhysPin × PinFields) → Bool
  | [] => true
  | (q, g) :: rest => decide (g ≠ PinFields.fresh) && rest.all (fun e => pinLt q e.1) && pinsWf rest

/-- Enable a port in the list of enabled ports. -/
def insertPort (p : Nat) : List Nat → List Nat
  | [] => [p]
  | q :: rest => if p = q then q :: rest else if p < q then p :: q :: rest else q :: insertPort p rest

/-- The canonical form of the enabled ports: strictly rising. -/
def portsWf : List Nat → Bool
  | [] => true
  | q :: rest => rest.all (fun p => decide (q < p)) && portsWf rest

/-- `gpio[p][k]` (10_state R35). -/
def State.pin (s : State) (q : PhysPin) : PinFields := lookupPin s.gpio q

/-- `clk[p]` (10_state R37). -/
def State.clockOn (s : State) (port : Nat) : Bool := decide (port ∈ s.clk)

/-- Change the fields of one pin; every other pin stays (42_gpio R199). -/
def updatePin (q : PhysPin) (f : PinFields → PinFields) (s : State) : State :=
  { s with gpio := storePin q (f (s.pin q)) s.gpio }

/-- `clk[p] <- true`, idempotent (10_state R37). -/
def enableClock (port : Nat) (s : State) : State := { s with clk := insertPort port s.clk }

/-- The output latch of a pin's fields. -/
def PinFields.setOut (level : Bool) (f : PinFields) : PinFields := { f with out := some level }

/-- `GpioWrite` on a physical pin: the output latch, whatever the pin's mode, if the port clock is on (42_gpio R197). -/
def writeLatch (q : PhysPin) (level : Bool) (s : State) : Except Fault State :=
  if s.clockOn q.port then .ok (updatePin q (PinFields.setOut level) s)
  else .error .gpioClockOff

/-! ## The motor record -/

/-- BASE_DUTY (00_scope R6). -/
def baseDuty : Nat := 600
/-- MIN_DUTY (00_scope R6). -/
def minDuty : Nat := 300
/-- MAX_DUTY (00_scope R6). -/
def maxDuty : Nat := 1023
/-- STEP (00_scope R6). -/
def stepDuty : Nat := 30
/-- HONK_MS (00_scope R6): the duration of a honk; no step depends on it (70_reset_and_hazards R276). -/
def honkMs : Nat := 200

/-- `car[s]` (10_state R21). -/
def Car.motor (c : Car) : Side → Motor
  | .left => c.left
  | .right => c.right

/-- `car[s] <- m`. -/
def Car.setMotor (c : Car) (m : Motor) : Side → Car
  | .left => { c with left := m }
  | .right => { c with right := m }

/-- A stopped motor (10_state R23). -/
def Motor.halted : Motor := ⟨0, .stopped⟩

/-- The clamp function on a proposed duty in ℤ, with no wrap-around (40_motor R101). -/
def clampDuty (p : Int) : Int := if p < (minDuty : Int) then 0 else min p (maxDuty : Int)

/-- A motor given a proposed duty (40_motor R102): the direction stays unless the duty becomes 0. -/
def Motor.propose (m : Motor) (p : Int) : Motor :=
  if clampDuty p = 0 then Motor.halted else { m with duty := BitVec.ofInt 10 (clampDuty p) }

/-- `set_duty(s, car[s].duty + delta)` (40_motor R102). -/
def Car.bump (c : Car) (delta : Int) (side : Side) : Car :=
  c.setMotor ((c.motor side).propose ((c.motor side).duty.toNat + delta)) side

/-- Both motors at BASE_DUTY in one direction if both are STOPPED, else NO_TRANSITION (40_motor R106, R118). -/
def Car.startFrom (dir : Dir) (c : Car) : Car × Status :=
  if c.left.dir = .stopped ∧ c.right.dir = .stopped then
    (⟨⟨BitVec.ofNat 10 baseDuty, dir⟩, ⟨BitVec.ofNat 10 baseDuty, dir⟩⟩, .ok)
  else (c, .noTransition)

/-! ## Output reflection -/

/-- The direction-pin code `(DIR_A, DIR_B)` (30_encoding R75). -/
def dirCode : Dir → Bool × Bool
  | .forward => (true, false)
  | .backward => (false, true)
  | .stopped => (false, false)

/-- `pwm[s]` (10_state R24). -/
def Pwm.duty (p : Pwm) : Side → Option (BitVec 10)
  | .left => p.left
  | .right => p.right

/-- `pwm[s] <- d`. -/
def Pwm.setDuty (p : Pwm) (d : BitVec 10) : Side → Pwm
  | .left => { p with left := some d }
  | .right => { p with right := some d }

/-- Output reflection of one side (40_motor R103): the duty register, then DIR_A, then DIR_B. -/
def reflectSide (side : Side) (s : State) : Except Fault State :=
  match writeLatch (s.cfg.pinMap.dirA side) (dirCode (s.car.motor side).dir).1
      { s with pwm := s.pwm.setDuty (s.car.motor side).duty side } with
  | .error k => .error k
  | .ok t => writeLatch (s.cfg.pinMap.dirB side) (dirCode (s.car.motor side).dir).2 t

/-- Output reflection of both sides, LEFT before RIGHT (40_motor R103, 60_exceptions R229; log 13). -/
def reflect (s : State) : Except Fault State :=
  match reflectSide .left s with
  | .error k => .error k
  | .ok t => reflectSide .right t

/-- The frame of every motor operation (40_motor R100): one atomic step, which a fault of the reflection ends with the
state as the step found it (60_exceptions R232). -/
def msmStep (semantics : Car → Car × Status) (s : State) : State :=
  settle s (match reflect { s with car := (semantics s.car).1 } with
    | .error k => .error k
    | .ok t => .ok (returns (semantics s.car).2 t))

/-! ## The environment -/

/-- The HOST receives bytes of the command input and holds their units behind those it has (30_encoding R71,
60_exceptions R246). -/
def State.hostSends (s : State) (bytes : List Byte) : State :=
  { s with hostUnits := s.hostUnits ++ unitsOf bytes }

/-- A power cycle is a reset: nothing of the block survives (60_exceptions R240). The parameters stay, and what the HOST
and the controller software hold is no state of the block (log 25). -/
def State.powerCycle (s : State) : State :=
  { State.resetWith s.cfg with
    hostUnits := s.hostUnits, ctrlOps := s.ctrlOps, sched := s.sched, draws := s.draws }

end Sys2Proof.Machine
end

