-- ==== Sys2Proof/Machine/Operands.lean ====
section
/-! DEFINITION. The operand forms of the CTRL operations (30_encoding R77, R78): the validity of configuration values
and the pin operand, and the shared frame of the five configuration operations (42_gpio R190). -/

namespace Sys2Proof.Machine

/-- GPIO_MODE: 0 input, 1 output, 2 alternate, 3 analog (30_encoding R77). -/
def validMode (v : Nat) : Bool := decide (v ≤ 3)
/-- GPIO_PULL: 0 off, 1 up, 2 down; 3 is reserved and invalid (30_encoding R77, 90_conflicts C6). -/
def validPull (v : Nat) : Bool := decide (v ≤ 2)
/-- GPIO_OTYPE: 0 push-pull, 1 open-drain (30_encoding R77). -/
def validOtype (v : Nat) : Bool := decide (v ≤ 1)
/-- GPIO_SPEED: 0 to 3 (30_encoding R77). -/
def validSpeed (v : Nat) : Bool := decide (v ≤ 3)
/-- GPIO_AF: 0 to 15 (30_encoding R77). -/
def validAf (v : Nat) : Bool := decide (v ≤ 15)

/-- `clk[p]` on, then the field (42_gpio R190, `field ∈ {mode, af}`). -/
def writeEnabling (q : PhysPin) (f : PinFields → PinFields) (s : State) : Except Fault State :=
  .ok (returns .ok (updatePin q f (enableClock q.port s)))

/-- The field, if the port clock is on (42_gpio R190, R191). -/
def writeClocked (q : PhysPin) (f : PinFields → PinFields) (s : State) : Except Fault State :=
  if s.clockOn q.port then .ok (returns .ok (updatePin q f s)) else .error .gpioClockOff

/-- An operation on a logical pin: `(p, k) <- PIN_MAP(pin)`; an identifier that is no PinName is refused (30_encoding
R81). -/
def onPin (pin : PinName) (s : State) (act : PhysPin → Except Fault State) : State :=
  match s.cfg.pinMap.lookup pin with
  | none => refuse .badPin s
  | some q => settle s (act q)

/-- The frame of the five configuration operations (42_gpio R190): validation comes before the clock, and an invalid
value changes no field and no clock. -/
def gpioConfig (pin : PinName) (valid : Bool) (s : State) (write : PhysPin → Except Fault State) : State :=
  onPin pin s fun q =>
    if valid then write q
    else .ok (returns .invalidConfiguration (emit .invalidConfiguration s))

/-- The operands of TIM_CLOCK_SET in range (41_audio R155). -/
def timerOperandsOk (c : Config) (psc arr : Nat) : Bool :=
  decide (1 ≤ arr ∧ arr < 2 ^ c.timerWidth ∧ psc < 2 ^ c.timerWidth)

end Sys2Proof.Machine
end

