-- ==== Sys2Proof/Machine/Lut.lean ====
section
/-! DEFINITION. The values of the sine table (41_audio R148, R149), computed exactly in ℤ for every FULL_SCALE. The entry
`floor(x_i + 1/2)` is the largest k with `2k - 1 - FULL_SCALE ≤ FULL_SCALE · sin(π i / 50)`. A sine of the table is a
cosine `cos(π m / 50)` with `0 ≤ m ≤ 50`, and `cos(π m / 50) ≥ cos θ` says `m ≤ 50 θ / π`: so the comparison needs only
how often the angle kθ passes a multiple of π for k up to 50, which the signs of `sin(kθ)` tell. They are those of an
integer recurrence (the Chebyshev one). Laws/Lut.lean proves the table equal to the real-number formula. -/

namespace Sys2Proof.Machine

/-- For `cos θ = p / f`: `⌊kθ/π⌋`, and the integers `f^(k-1) sin(kθ)/sin θ` at k and k + 1 (the first is 0 at k = 0). -/
def winding (f : Nat) (p : Int) : Nat → Nat × Int × Int
  | 0 => (0, 0, 1)
  | k + 1 =>
    match winding f p k with
    | (w, v, v') =>
      (if 0 < (if w % 2 = 0 then v' else -v') then w else w + 1, v', 2 * p * v' - (f : Int) * f * v)

/-- The m with `sin(π i / 50) = cos(π m / 50)` and `0 ≤ m ≤ 50`, for i < 100. -/
def cosineIndex (i : Nat) : Nat :=
  if i ≤ 25 then 25 - i else if i ≤ 75 then i - 25 else 125 - i

/-- `2k - 1 - f ≤ f · sin(π i / 50)`, for 1 ≤ k ≤ f. -/
def entryAtLeast (f i k : Nat) : Bool :=
  decide (cosineIndex i ≤ (winding f (2 * (k : Int) - 1 - f) 50).1)

/-- The largest number of `[lo, hi)` at which a falling predicate holds, or `lo`, by halving. -/
def lastWhere (P : Nat → Bool) : Nat → Nat → Nat → Nat
  | 0, lo, _ => lo
  | fuel + 1, lo, hi =>
    if hi ≤ lo + 1 then lo
    else if P ((lo + hi) / 2) then lastWhere P fuel ((lo + hi) / 2) hi
    else lastWhere P fuel lo ((lo + hi) / 2)

/-- `floor(x_i + 1/2)` (41_audio R149). -/
def roundedEntry (f i : Nat) : Nat := lastWhere (entryAtLeast f i) (f + 1) 0 (f + 1)

/-- The value of `lut[i]` (41_audio R149): the ties at i = 0 and i = 50 of an odd FULL_SCALE are parameters. -/
def lutEntry (c : Config) (i : Nat) : Nat :=
  if i = 0 ∧ c.fullScale % 2 = 1 then c.lutTie0
  else if i = 50 ∧ c.fullScale % 2 = 1 then c.lutTie50
  else roundedEntry c.fullScale i

/-- The table LUT_INIT writes (41_audio R149, R151). -/
def lutTable (c : Config) : Vector Nat tableLen :=
  ⟨((List.range tableLen).map (lutEntry c)).toArray, by simp⟩

end Sys2Proof.Machine
end

