-- ==== Sys2Proof/Machine/Audio.lean ====
section
/-! DEFINITION. The audio path: LUT_INIT, the timer, the DMA, the DAC, HONK and its end step, and the TIMER's tick
(41_audio). -/

namespace Sys2Proof.Machine

/-! ## LUT and DAC -/

/-- LUT_INIT (41_audio R151): the table is written once; a second LUT_INIT is refused. -/
def execLutInit (s : State) : Host.Outcome State Fault Refusal :=
  .next (match s.lut with
    | none => returns .ok { s with lut := some (lutTable s.cfg) }
    | some _ => refuse .lutReinit s)

/-- DAC_ENABLE (41_audio R168). -/
def execDacEnable (s : State) : Host.Outcome State Fault Refusal :=
  .next (returns .ok { s with dac := { s.dac with en := true } })

/-! ## Timer -/

/-- TIM_CLOCK_SET (41_audio R155): the pair of periods is written and both counters are cleared; nothing else changes. -/
def execTimClockSet (prescaler reload : Nat) (s : State) : Host.Outcome State Fault Refusal :=
  .next (if timerOperandsOk s.cfg prescaler reload then
      returns .ok { s with tim := { s.tim with psc := some prescaler, arr := some reload, pcnt := 0, cnt := 0 } }
    else refuse .timerRange s)

/-- TIM_START (41_audio R156). -/
def execTimStart (s : State) : Host.Outcome State Fault Refusal :=
  .next (if s.tim.psc = none ∨ s.tim.arr = none then raise .timerUnconfigured s
    else returns .ok { s with tim := { s.tim with en := true } })

/-! ## DMA -/

/-- `dma_arm()` (41_audio R164): arming twice changes nothing; the index after an arm is a free value (log 7). -/
def armed (s : State) : Except Fault State :=
  match s.lut with
  | none => .error .lutUninit
  | some _ =>
    if s.dma.state = .armed then .ok s
    else .ok { s with dma := ⟨.armed, some (Config.armStart s.draws)⟩, draws := s.draws + 1 }

/-- `dma_disarm()` (41_audio R165): the index and the DAC data stay. -/
def disarmed (s : State) : State := { s with dma := { s.dma with state := .idle } }

/-- DMA_ARM (41_audio R164). -/
def execDmaArm (s : State) : Host.Outcome State Fault Refusal :=
  .next (settle s (match armed s with
    | .error k => .error k
    | .ok t => .ok (returns .ok t)))

/-- DMA_DISARM (41_audio R165). -/
def execDmaDisarm (s : State) : Host.Outcome State Fault Refusal :=
  .next (returns .ok (disarmed s))

/-- `MemRead(LUT, i)` (20_memory R52). -/
def lutRead (t : Vector Nat tableLen) (i : Fin tableLen) : Nat := t[i]

/-- `transfer()` (41_audio R166): one whole entry to the DAC data register, and the index moves on, from 99 to 0. While
the DMA is ARMED there is a table and an index; of the states no run reaches, one without a table faults, and one
without an index has it drawn (log 15). -/
def transferred (s : State) : Except Fault State :=
  match s.lut, s.dma.idx with
  | none, _ => .error .lutUninit
  | some t, some i =>
    .ok { s with dac := { s.dac with data := some (lutRead t i) }, dma := { s.dma with idx := some (i + 1) } }
  | some t, none =>
    .ok { s with
      dac := { s.dac with data := some (lutRead t (Config.armStart s.draws)) },
      dma := { s.dma with idx := some (Config.armStart s.draws + 1) },
      draws := s.draws + 1 }

/-- `overflow()` (41_audio R159): the trigger is not latched. -/
def overflowed (s : State) : Except Fault State :=
  if s.dma.state = .armed then transferred s else .ok s

/-- `tick()` (41_audio R158): one timer-clock tick of a running timer, the transfer of an overflow in the same step. A
running timer has a prescaler and a reload; a state no run reaches without one faults (log 15). -/
def tick (s : State) : State :=
  match s.tim.psc, s.tim.arr with
  | some psc, some arr =>
    if s.tim.pcnt < psc then { s with tim := { s.tim with pcnt := s.tim.pcnt + 1 } }
    else if s.tim.cnt < arr then { s with tim := { s.tim with pcnt := 0, cnt := s.tim.cnt + 1 } }
    else settle s (overflowed { s with tim := { s.tim with pcnt := 0, cnt := 0 } })
  | _, _ => raise .timerUnconfigured s

/-! ## Honk -/

/-- HONK, the first step (41_audio R172): no status yet. -/
def execHonk (s : State) : Host.Outcome State Fault Refusal :=
  .next (settle s (match armed s with
    | .error k => .error k
    | .ok t => .ok (returnsNothing { t with phase := .honkBusy })))

/-- The honk end step (41_audio R173): the status of the HONK token is returned here. -/
def honkEnd (s : State) : State := returns .ok { disarmed s with phase := .idle }

end Sys2Proof.Machine
end

