-- ==== Sys2Proof/Machine/Gpio.lean ====
section
/-! DEFINITION. The seven GPIO operations (42_gpio). -/

namespace Sys2Proof.Machine

/-- GPIO_MODE (42_gpio R192): enables the port clock. -/
def execGpioMode (pin : PinName) (v : Nat) (s : State) : Host.Outcome State Fault Refusal :=
  .next (gpioConfig pin (validMode v) s fun q =>
    writeEnabling q (fun f => { f with mode := some (BitVec.ofNat 2 v) }) s)

/-- GPIO_PULL (42_gpio R193). -/
def execGpioPull (pin : PinName) (v : Nat) (s : State) : Host.Outcome State Fault Refusal :=
  .next (gpioConfig pin (validPull v) s fun q =>
    writeClocked q (fun f => { f with pull := some (BitVec.ofNat 2 v) }) s)

/-- GPIO_OTYPE (42_gpio R194). -/
def execGpioOtype (pin : PinName) (v : Nat) (s : State) : Host.Outcome State Fault Refusal :=
  .next (gpioConfig pin (validOtype v) s fun q =>
    writeClocked q (fun f => { f with otype := some (BitVec.ofNat 1 v) }) s)

/-- GPIO_SPEED (42_gpio R195). -/
def execGpioSpeed (pin : PinName) (v : Nat) (s : State) : Host.Outcome State Fault Refusal :=
  .next (gpioConfig pin (validSpeed v) s fun q =>
    writeClocked q (fun f => { f with speed := some (BitVec.ofNat 2 v) }) s)

/-- GPIO_AF (42_gpio R196): enables the port clock; the mode stays. -/
def execGpioAf (pin : PinName) (v : Nat) (s : State) : Host.Outcome State Fault Refusal :=
  .next (gpioConfig pin (validAf v) s fun q =>
    writeEnabling q (fun f => { f with af := some (BitVec.ofNat 4 v) }) s)

/-- GPIO_WRITE (42_gpio R197). -/
def execGpioWrite (pin : PinName) (level : Bool) (s : State) : Host.Outcome State Fault Refusal :=
  .next (onPin pin s fun q =>
    match writeLatch q level s with
    | .error k => .error k
    | .ok t => .ok (returns .ok t))

/-- GPIO_READ (42_gpio R198): the level is a free value, on an output pin too; the block's state stays (log 8). -/
def execGpioRead (pin : PinName) (s : State) : Host.Outcome State Fault Refusal :=
  .next (onPin pin s fun q =>
    if s.clockOn q.port then .ok (returnsLevel (Config.pinLevel s.draws) { s with draws := s.draws + 1 })
    else .error .gpioClockOff)

end Sys2Proof.Machine
end

