-- ==== Sys2Proof/Machine/Motor.lean ====
section
/-! DEFINITION. The motor and drive operations, the unrecognized unit and BOOT_DONE (40_motor). -/

namespace Sys2Proof.Machine

/-- DRIVE (40_motor R106). -/
def execDrive (s : State) : Host.Outcome State Fault Refusal :=
  .next (msmStep (Car.startFrom .forward) s)

/-- ACCELERATE (40_motor R108): each side from its own duty. -/
def execAccelerate (s : State) : Host.Outcome State Fault Refusal :=
  .next (msmStep (fun c => ((c.bump stepDuty .left).bump stepDuty .right, .ok)) s)

/-- BRAKE (40_motor R110). -/
def execBrake (s : State) : Host.Outcome State Fault Refusal :=
  .next (msmStep (fun c => ((c.bump (-stepDuty) .left).bump (-stepDuty) .right, .ok)) s)

/-- STOP (40_motor R112). -/
def execStop (s : State) : Host.Outcome State Fault Refusal :=
  .next (msmStep (fun _ => (⟨Motor.halted, Motor.halted⟩, .ok)) s)

/-- TURN_LEFT (40_motor R114): the left side only. -/
def execTurnLeft (s : State) : Host.Outcome State Fault Refusal :=
  .next (msmStep (fun c => (c.bump (-stepDuty) .left, .ok)) s)

/-- TURN_RIGHT (40_motor R116): the right side only. -/
def execTurnRight (s : State) : Host.Outcome State Fault Refusal :=
  .next (msmStep (fun c => (c.bump (-stepDuty) .right, .ok)) s)

/-- REVERSE (40_motor R118). -/
def execReverse (s : State) : Host.Outcome State Fault Refusal :=
  .next (msmStep (Car.startFrom .backward) s)

/-- UNRECOGNIZED (40_motor R123): one diagnostic, no status, nothing else. -/
def execUnrecognized (_bytes : List Byte) (s : State) : Host.Outcome State Fault Refusal :=
  .next (returnsNothing (emit .unrecognizedCommand s))

/-- BOOT_DONE (40_motor R120): reflect CarState, then phase IDLE. -/
def execBootDone (s : State) : Host.Outcome State Fault Refusal :=
  .next (if s.phase = .boot then
      settle s (match reflect s with
        | .error k => .error k
        | .ok t => .ok (returns .ok { t with phase := .idle }))
    else refuse .bootDoneTwice s)

end Sys2Proof.Machine
end

