-- ==== Sys2Proof/Machine/Dispatch.lean ====
section
/-! DEFINITION. The dispatch of a decoded operation to its meaning (40_motor R104). -/

namespace Sys2Proof.Machine

def exec (i : Instr) (s : State) : Host.Outcome State Fault Refusal :=
  match i with
  | .drive => Sys2Proof.Machine.execDrive s
  | .accelerate => Sys2Proof.Machine.execAccelerate s
  | .brake => Sys2Proof.Machine.execBrake s
  | .stop => Sys2Proof.Machine.execStop s
  | .turnLeft => Sys2Proof.Machine.execTurnLeft s
  | .turnRight => Sys2Proof.Machine.execTurnRight s
  | .reverse => Sys2Proof.Machine.execReverse s
  | .honk => Sys2Proof.Machine.execHonk s
  | .unrecognized bytes => Sys2Proof.Machine.execUnrecognized bytes s
  | .gpioMode pin v => Sys2Proof.Machine.execGpioMode pin v s
  | .gpioPull pin v => Sys2Proof.Machine.execGpioPull pin v s
  | .gpioOtype pin v => Sys2Proof.Machine.execGpioOtype pin v s
  | .gpioSpeed pin v => Sys2Proof.Machine.execGpioSpeed pin v s
  | .gpioAf pin v => Sys2Proof.Machine.execGpioAf pin v s
  | .gpioWrite pin level => Sys2Proof.Machine.execGpioWrite pin level s
  | .gpioRead pin => Sys2Proof.Machine.execGpioRead pin s
  | .lutInit => Sys2Proof.Machine.execLutInit s
  | .dacEnable => Sys2Proof.Machine.execDacEnable s
  | .timClockSet prescaler reload => Sys2Proof.Machine.execTimClockSet prescaler reload s
  | .timStart => Sys2Proof.Machine.execTimStart s
  | .dmaArm => Sys2Proof.Machine.execDmaArm s
  | .dmaDisarm => Sys2Proof.Machine.execDmaDisarm s
  | .bootDone => Sys2Proof.Machine.execBootDone s

end Sys2Proof.Machine
end

