-- ==== Sys2Proof/Machine/Accept.lean ====
section
/-! DEFINITION. When the agents move (40_motor R105, 41_audio R158, R173, 60_exceptions R228): what `step` calls. -/

namespace Sys2Proof.Machine

/-- A command unit is taken only in phase IDLE (40_motor R105). -/
def acceptsUnit (s : State) : Bool := decide (s.phase = .idle)

/-- A CTRL operation is taken in phase BOOT and in phase IDLE (40_motor R105). -/
def acceptsCtrl (s : State) : Bool := decide (s.phase ≠ .honkBusy)

/-- The refusal a decoder's error becomes (60_exceptions R227). -/
def refusalOf : DecodeError → Refusal
  | .badSelector => .badSelector
  | .badPin => .badPin
  | .badWriteValue => .badWriteValue

/-- `accept_unit` (40_motor R104): the HOST's next unit is taken; one that is not accepted stays with the HOST. -/
def moveUnit (s : State) : Host.Outcome State Fault Refusal :=
  match s.hostUnits with
  | [] => .next s
  | u :: us => if acceptsUnit s then exec (decodeUnit u) { s with hostUnits := us } else .next s

/-- The controller software's next CTRL record is taken; one that is not accepted stays. A record the decoder refuses
sets the refusal mark (30_encoding R81). -/
def moveCtrl (s : State) : Host.Outcome State Fault Refusal :=
  match s.ctrlOps with
  | [] => .next s
  | r :: rs =>
    if acceptsCtrl s then
      match decodeCtrl s.cfg r with
      | .ok i => exec i { s with ctrlOps := rs }
      | .error e => .next (refuse (refusalOf e) { s with ctrlOps := rs })
    else .next s

/-- The honk end step is enabled exactly in phase HONK_BUSY (41_audio R173). -/
def moveHonkEnd (s : State) : Host.Outcome State Fault Refusal :=
  .next (if s.phase = .honkBusy then honkEnd s else s)

/-- A tick is enabled while the timer runs (41_audio R158). -/
def moveTick (s : State) : Host.Outcome State Fault Refusal :=
  .next (if s.tim.en then tick s else s)

/-- One move of one agent; a move that is not enabled changes nothing (log 5). -/
def runMove (m : Move) (s : State) : Host.Outcome State Fault Refusal :=
  match m with
  | .unit => moveUnit s
  | .ctrl => moveCtrl s
  | .honkEnd => moveHonkEnd s
  | .tick => moveTick s

/-- The next step of the schedule. A recorded fault or refusal stops every agent (60_exceptions R228); with no move
scheduled, nothing happens (log 5). -/
def advance (s : State) : Host.Outcome State Fault Refusal :=
  match s.fault, s.refusal with
  | some k, _ => .fault k
  | none, some r => .refused r
  | none, none =>
    match s.sched with
    | [] => .next s
    | m :: ms => runMove m { s with sched := ms }

/-- The state with a unit or record as the next work, and the DISPATCHER as the next agent to move: it has no fault or
refusal recorded and is in a phase that accepts the work (log 24). -/
def placeWork (w : Work) (s : State) : State :=
  match w with
  | .unit u =>
    { s with hostUnits := u :: s.hostUnits, sched := .unit :: s.sched, phase := .idle, fault := none, refusal := none }
  | .ctrl r =>
    { s with
      ctrlOps := r :: s.ctrlOps, sched := .ctrl :: s.sched, fault := none, refusal := none,
      phase := if s.phase = .honkBusy then .idle else s.phase }

end Sys2Proof.Machine
end

