-- ==== Sys2Proof/Machine/Step.lean ====
section
/-! DEFINITION. One step of the machine, and the placing of an instruction where the next step takes it. -/

namespace Sys2Proof.Machine

/-- One step of the machine (00_scope R13, 20_memory R60). -/
def step (s : State) : Host.Outcome State Fault Refusal := advance s

/-- The state in which the next step runs the instruction with bits `w` (log 24). -/
def State.withFetchWord (s : State) (nbits w : Nat) : State := placeWork (tableWork nbits w) s

end Sys2Proof.Machine
end

