-- ==== Sys2Proof/Machine/Observe.lean ====
section
/-! DEFINITION. What can be observed of the block (60_exceptions R246, R247): the analog output, the direction pins, the
driven level and the alternate function of a pin, the packed GPIO registers, and the timing facts no rule depends on. -/

namespace Sys2Proof.Machine

/-- The analog output (41_audio R169): `dac.data` while enabled; `none` where the spec leaves it unspecified (log 27). -/
def State.analogOutput (s : State) : Option Nat := if s.dac.en then s.dac.data else none

/-- The latches `(DIR_A, DIR_B)` of a side (10_state R25). -/
def State.dirLatches (s : State) (side : Side) : Option Bool × Option Bool :=
  ((s.pin (s.cfg.pinMap.dirA side)).out, (s.pin (s.cfg.pinMap.dirB side)).out)

/-- The level a pin drives: its latch while its mode is output (42_gpio R197; PRESUMED by the spec, log 28). DESIGN
CHOICE, unsafe (log 32): where the mode or the latch is unspecified the answer is `none` too, the same as for a mode that
drives nothing. -/
def State.drivenLevel (s : State) (q : PhysPin) : Option Bool :=
  if (s.pin q).mode = some 0b01 then (s.pin q).out else none

/-- The pin uses alternate function `n`: only in mode alternate, and the function its `af` field names (42_gpio R196).
DESIGN CHOICE, unsafe (log 32): the answer is `false` where the mode or the function is unspecified. -/
def State.usesFunction (s : State) (q : PhysPin) (n : BitVec 4) : Bool :=
  decide ((s.pin q).mode = some 0b10) && decide ((s.pin q).af = some n)

/-- The PWM output of a side is routed to its pin: the pin uses function AF_PWM (70_reset_and_hazards R262; `false` where
a field is unspecified, log 32). -/
def State.pwmRouted (s : State) (side : Side) : Bool :=
  s.usesFunction (s.cfg.pinMap.pwm side) (BitVec.ofNat 4 s.cfg.afPwm)

/-- The fields of pins 0, 1, … at `w` bits a pin, or `none` where one is unspecified. -/
def packFields (w : Nat) : List (Option Nat) → Option Nat
  | [] => some 0
  | none :: _ => none
  | some v :: rest => (packFields w rest).map (fun r => v + 2 ^ w * r)

/-- A register of a port in the informative packing of 10_state R38 (log 30). -/
def State.portRegister (s : State) (w : Nat) (field : PinFields → Option Nat) (port : Nat) : Option Nat :=
  packFields w ((List.range s.cfg.pinsPerPort).map fun k => field (s.pin ⟨port, k⟩))

/-- MODE of a port (10_state R38). -/
def State.modeRegister (s : State) : Nat → Option Nat := s.portRegister 2 (fun f => f.mode.map BitVec.toNat)
/-- OTYPE of a port (10_state R38). -/
def State.otypeRegister (s : State) : Nat → Option Nat := s.portRegister 1 (fun f => f.otype.map BitVec.toNat)
/-- SPEED of a port (10_state R38). -/
def State.speedRegister (s : State) : Nat → Option Nat := s.portRegister 2 (fun f => f.speed.map BitVec.toNat)
/-- PULL of a port (10_state R38). -/
def State.pullRegister (s : State) : Nat → Option Nat := s.portRegister 2 (fun f => f.pull.map BitVec.toNat)
/-- AF of a port (10_state R38). -/
def State.afRegister (s : State) : Nat → Option Nat := s.portRegister 4 (fun f => f.af.map BitVec.toNat)
/-- OUT of a port (10_state R38). -/
def State.outRegister (s : State) : Nat → Option Nat := s.portRegister 1 (fun f => f.out.map Bool.toNat)

/-- The timer's period in timer-clock ticks (41_audio R153, R160). -/
def State.timerPeriod (s : State) : Option Nat :=
  match s.tim.psc, s.tim.arr with
  | some psc, some arr => some ((psc + 1) * (arr + 1))
  | _, _ => none

/-- The overflow frequency f_ovf in Hz (41_audio R153); the tone is TABLE_LEN times lower. -/
def State.overflowHz (s : State) : Option Rat := s.timerPeriod.map fun n => (s.cfg.timerClkHz : Rat) / n

/-- The tone frequency in Hz (41_audio R153). -/
def State.toneHz (s : State) : Option Rat := s.overflowHz.map (· / (tableLen : Nat))

end Sys2Proof.Machine
end

