-- ==== Sys2Proof/Machine/Runs.lean ====
section
/-! DEFINITION. Runs of the machine and weak fairness, the only liveness assumption (00_scope R10, 20_memory R60,
60_exceptions R247; decision D1 of 92_eei_decisions). -/

namespace Sys2Proof.Machine

/-- No fault and no refusal is recorded: agents may step (60_exceptions R228). -/
def State.running (s : State) : Bool := decide (s.fault = none) && decide (s.refusal = none)

/-- The enabling conditions of the moves (40_motor R105, 41_audio R158, R173). -/
def Move.enabled (m : Move) (s : State) : Bool :=
  s.running && match m with
    | .unit => acceptsUnit s && !s.hostUnits.isEmpty
    | .ctrl => acceptsCtrl s && !s.ctrlOps.isEmpty
    | .honkEnd => decide (s.phase = .honkBusy)
    | .tick => s.tim.en

/-- What can happen between two states of a run: an agent moves, the HOST sends bytes, the controller software issues
records, or nothing happens (log 31). -/
inductive Event where
  | move (m : Move)
  | sends (bytes : List Byte)
  | issues (records : List CtrlRecord)
  | nothing
  deriving DecidableEq, Repr

/-- The controller software issues records behind those it has (00_scope R2). -/
def State.issue (s : State) (records : List CtrlRecord) : State := { s with ctrlOps := s.ctrlOps ++ records }

/-- An event leads from `s` to `t`: a move only where it is enabled, as the step whose schedule names it; after a fault
or a refusal nothing happens (20_memory R60, 60_exceptions R228). -/
def Event.Leads (e : Event) (s t : State) : Prop :=
  match e with
  | .move m => m.enabled s = true ∧ step { s with sched := [m] } = .next t
  | .sends bytes => s.running = true ∧ t = s.hostSends bytes
  | .issues records => s.running = true ∧ t = s.issue records
  | .nothing => t = s

/-- A run: states and the events between them. A run in which nothing happens from some point on is a finite one. -/
def IsRun (states : Nat → State) (events : Nat → Event) : Prop :=
  ∀ k, (events k).Leads (states k) (states (k + 1))

/-- Weak fairness of one move: if it stays enabled, it is taken. -/
def FairTo (m : Move) (states : Nat → State) (events : Nat → Event) : Prop :=
  ∀ k, (∀ j, k ≤ j → m.enabled (states j) = true) → ∃ j, k ≤ j ∧ events j = .move m

/-- A weakly fair run (00_scope R10, D1): the DISPATCHER ends a honk, the TIMER ticks once started, and a unit the HOST
has sent is taken in phase IDLE. Neither the HOST nor the controller software owes anything. -/
structure WeaklyFair (states : Nat → State) (events : Nat → Event) : Prop where
  run : IsRun states events
  honkEnd : FairTo .honkEnd states events
  tick : FairTo .tick states events
  unit : FairTo .unit states events

end Sys2Proof.Machine
end

