-- ==== Sys2Proof/Safety.lean ====
section
/-! DEFINITION. The terms claims are stated in: the invariants of the machine, what an operation leaves, observation
points, the launch premise BOOTED with the boot sequence, and runs of timer ticks. -/

namespace Sys2Proof.Machine

/-! ## Motors -/

/-- The invariant of 10_state R22 for one motor. -/
def MotorOk (m : Motor) : Prop :=
  (m.duty = 0 ↔ m.dir = .stopped) ∧ (m.dir ≠ .stopped → minDuty ≤ m.duty.toNat ∧ m.duty.toNat ≤ maxDuty)

/-- The duties of 40_motor R122: 0, and those of [300, 1023] that are 0 or 3 modulo 30. -/
def ReachableDuty (d : Nat) : Prop :=
  d = 0 ∨ (300 ≤ d ∧ d ≤ 1023 ∧ (d % 30 = 0 ∨ d % 30 = 3))

/-- Both motors STOPPED. -/
def BothStopped (c : Car) : Prop := c.left.dir = .stopped ∧ c.right.dir = .stopped

/-- The clocks of the ports of the four direction pins are on. -/
def DirClocksOn (s : State) : Prop :=
  s.clockOn s.cfg.pinMap.leftDirA.port = true ∧ s.clockOn s.cfg.pinMap.leftDirB.port = true ∧
  s.clockOn s.cfg.pinMap.rightDirA.port = true ∧ s.clockOn s.cfg.pinMap.rightDirB.port = true

/-- The four direction pins are four physical pins. -/
def DirPinsDistinct (m : PinMap) : Prop :=
  m.leftDirA ≠ m.leftDirB ∧ m.leftDirA ≠ m.rightDirA ∧ m.leftDirA ≠ m.rightDirB ∧
  m.leftDirB ≠ m.rightDirA ∧ m.leftDirB ≠ m.rightDirB ∧ m.rightDirA ≠ m.rightDirB

/-- The fields of physical pin `q` after both sides are reflected: the latch of a direction pin is the bit of 30_encoding
R75, that of the last write where names share a pin (log 13); every other field and pin stays. -/
def reflectedPin (m : PinMap) (c : Car) (q : PhysPin) (f : PinFields) : PinFields :=
  if q = m.rightDirB then f.setOut (dirCode c.right.dir).2
  else if q = m.rightDirA then f.setOut (dirCode c.right.dir).1
  else if q = m.leftDirB then f.setOut (dirCode c.left.dir).2
  else if q = m.leftDirA then f.setOut (dirCode c.left.dir).1
  else f

/-- `q` is one of the four direction pins. -/
def IsDirPin (m : PinMap) (q : PhysPin) : Prop :=
  q = m.leftDirA ∨ q = m.leftDirB ∨ q = m.rightDirA ∨ q = m.rightDirB

/-- What a motor operation that does not fault leaves: CarState, its reflection in the duty registers and the direction
latches, and the status; nothing else changes (40_motor R100, R103). -/
structure MotorOutcome (c : Car) (st : Status) (s t : State) : Prop where
  car : t.car = c
  pwm : t.pwm = ⟨some c.left.duty, some c.right.duty⟩
  reply : t.reply = some ⟨st, none⟩
  /-- the latches of distinct direction pins; for names that share a pin see `Obligations.SharedDirectionPins` -/
  latches : DirPinsDistinct s.cfg.pinMap →
    t.dirLatches .left = (some (dirCode c.left.dir).1, some (dirCode c.left.dir).2) ∧
    t.dirLatches .right = (some (dirCode c.right.dir).1, some (dirCode c.right.dir).2)
  /-- of every pin, only the latch can change, and only that of a direction pin -/
  pins : ∀ q, t.pin q = { s.pin q with out := (t.pin q).out } ∧ (¬ IsDirPin s.cfg.pinMap q → t.pin q = s.pin q)
  frame : t = { s with car := t.car, pwm := t.pwm, gpio := t.gpio, reply := t.reply }

/-- A step that ends in a fault records its kind, and the state is otherwise as the step found it (10_state R41,
60_exceptions R232). -/
def faulted (k : Fault) (s : State) : State := { s with fault := some k, reply := none }

/-- A refused step sets the mark, and the state is otherwise as the step found it (10_state R41, 60_exceptions R232). -/
def refusedFor (r : Refusal) (s : State) : State := { s with refusal := some r, reply := none }

/-- A motor one STEP up (40_motor R108): below MIN_DUTY it collapses, above MAX_DUTY it saturates. -/
def OneStepUp (m n : Motor) : Prop :=
  (m.duty.toNat + 30 < 300 → n = ⟨0, .stopped⟩) ∧
  (300 ≤ m.duty.toNat + 30 → n.dir = m.dir ∧ n.duty.toNat = min (m.duty.toNat + 30) 1023)

/-- A motor one STEP down (40_motor R110, R111). -/
def OneStepDown (m n : Motor) : Prop :=
  (m.duty.toNat < 330 → n = ⟨0, .stopped⟩) ∧
  (330 ≤ m.duty.toNat → n.dir = m.dir ∧ n.duty.toNat + 30 = m.duty.toNat)

/-! ## Pins -/

/-- Only pin `q` changes, by `f` (42_gpio R199 (b)). -/
def PinWritten (q : PhysPin) (f : PinFields → PinFields) (s t : State) : Prop :=
  t.pin q = f (s.pin q) ∧ ∀ r, r ≠ q → t.pin r = s.pin r

/-- A configuration operation that enables the port clock has written its field: nothing else changes (42_gpio R190). -/
def EnabledAndWritten (q : PhysPin) (f : PinFields → PinFields) (s t : State) : Prop :=
  PinWritten q f s t ∧ (∀ p, t.clockOn p = (s.clockOn p || decide (p = q.port))) ∧
  t = { s with gpio := t.gpio, clk := t.clk, reply := some ⟨.ok, none⟩ }

/-- An operation on a clocked port has written one field of one pin: nothing else changes (42_gpio R190, R197). -/
def WrittenOnly (q : PhysPin) (f : PinFields → PinFields) (s t : State) : Prop :=
  PinWritten q f s t ∧ t = { s with gpio := t.gpio, reply := some ⟨.ok, none⟩ }

/-- A configuration value outside its valid set: a diagnostic and a status, nothing else (42_gpio R190, R199 (a)). -/
def invalidated (s : State) : State :=
  { s with diag := s.diag ++ [.invalidConfiguration], reply := some ⟨.invalidConfiguration, none⟩ }

/-! ## The invariant of the machine -/

/-- The timer registers hold values of 10_state R31 and R32. -/
def TimerOk (width : Nat) (t : Timer) : Prop :=
  match t.psc, t.arr with
  | some psc, some arr => psc < 2 ^ width ∧ 1 ≤ arr ∧ arr < 2 ^ width ∧ t.pcnt ≤ psc ∧ t.cnt ≤ arr
  | none, none => t.en = false ∧ t.pcnt = 0 ∧ t.cnt = 0
  | _, _ => False

/-- The invariant of the machine. -/
structure MachineInv (s : State) : Prop where
  /-- the parameters meet 00_scope R7 -/
  parameters : s.cfg.wf = true
  /-- 10_state R22 -/
  motors : ∀ side, MotorOk (s.car.motor side)
  /-- 10_state R23, R24: before BOOT_DONE the car stands and no duty is driven -/
  booting : s.phase = .boot → s.car = ⟨Motor.halted, Motor.halted⟩ ∧ s.pwm = ⟨none, none⟩
  /-- 40_motor R103: the duty registers hold CarState's duties -/
  mirrored : s.phase ≠ .boot → ∀ side, s.pwm.duty side = some (s.car.motor side).duty
  /-- 10_state R30: the table is that of 41_audio R149, or not yet computed -/
  table : ∀ t, s.lut = some t → t = lutTable s.cfg
  /-- 10_state R31, R32 -/
  timer : TimerOk s.cfg.timerWidth s.tim
  /-- 41_audio R166: while ARMED there is a table and an index -/
  armed : s.dma.state = .armed → s.lut.isSome = true ∧ s.dma.idx.isSome = true
  /-- 41_audio R172: during a honk the DMA is ARMED -/
  honking : s.phase = .honkBusy → s.dma.state = .armed
  /-- 20_memory R55: a sample fits the DAC data register -/
  sample : ∀ v, s.dac.data = some v → v ≤ s.cfg.fullScale
  /-- the canonical form of the pins -/
  pins : pinsWf s.gpio = true
  /-- the canonical form of the enabled ports -/
  ports : portsWf s.clk = true
  /-- 10_state R35: pull 0b11 is never stored -/
  pulls : ∀ q, (s.pin q).pull ≠ some 0b11

/-! ## Points of a run -/

/-- An observation point (60_exceptions R247). -/
def ObservationPoint (s : State) : Prop :=
  s.phase = .idle ∧ s.hostUnits = [] ∧ s.fault = none ∧ s.refusal = none

/-- The boot sequence of the controller software (70_reset_and_hazards R262). -/
def bootSequence (afPwm psc0 arr0 : Nat) : List Instr :=
  [.lutInit, .dacEnable,
   .gpioMode (.motorDirA .left) 1, .gpioMode (.motorDirB .left) 1,
   .gpioMode (.motorDirA .right) 1, .gpioMode (.motorDirB .right) 1,
   .gpioMode (.motorPwm .left) 2, .gpioAf (.motorPwm .left) afPwm,
   .gpioMode (.motorPwm .right) 2, .gpioAf (.motorPwm .right) afPwm,
   .gpioMode .dacOut 3, .timClockSet psc0 arr0, .timStart, .bootDone]

/-- The launch premise BOOTED (70_reset_and_hazards R264) for a program whose command units are `units`: the HOST holds
them in order, and none is delivered yet. -/
structure Booted (units : List (List Byte)) (psc0 arr0 : Nat) (s : State) : Prop where
  host : s.hostUnits = units
  phase : s.phase = .idle
  noStop : s.fault = none ∧ s.refusal = none
  car : s.car = ⟨⟨0, .stopped⟩, ⟨0, .stopped⟩⟩
  pwm : s.pwm = ⟨some 0, some 0⟩
  dirPins : ∀ side, s.pin (s.cfg.pinMap.dirA side) = { PinFields.fresh with mode := some 0b01, out := some false } ∧
    s.pin (s.cfg.pinMap.dirB side) = { PinFields.fresh with mode := some 0b01, out := some false }
  pwmPins : ∀ side, s.pin (s.cfg.pinMap.pwm side) =
    { PinFields.fresh with mode := some 0b10, af := some (BitVec.ofNat 4 s.cfg.afPwm) }
  dacPin : s.pin s.cfg.pinMap.dacOut = { PinFields.fresh with mode := some 0b11 }
  otherPins : ∀ q, q ∉ ({ s.cfg.pinMap with others := [] } : PinMap).all → s.pin q = PinFields.fresh
  clocks : ∀ p, s.clockOn p = true ↔ ∃ q ∈ ({ s.cfg.pinMap with others := [] } : PinMap).all, q.port = p
  table : s.lut = some (lutTable s.cfg)
  dac : s.dac = ⟨true, none⟩
  /-- PSC0 and ARR0 are operands TIM_CLOCK_SET accepts (70_reset_and_hazards R262) -/
  period : timerOperandsOk s.cfg psc0 arr0 = true
  timer : s.tim.en = true ∧ s.tim.psc = some psc0 ∧ s.tim.arr = some arr0 ∧ s.tim.pcnt ≤ psc0 ∧ s.tim.cnt ≤ arr0
  dma : s.dma = ⟨.idle, none⟩
  diag : s.diag = []

/-! ## Ticks -/

/-- The tick of this state is an overflow (41_audio R158). -/
def overflowsNow (s : State) : Bool :=
  match s.tim.psc, s.tim.arr with
  | some psc, some arr => decide (psc ≤ s.tim.pcnt ∧ arr ≤ s.tim.cnt)
  | _, _ => false

/-- The state after `n` steps of the TIMER and of no other agent. -/
def ticks : Nat → State → State
  | 0, s => s
  | n + 1, s => tick (ticks n s)

/-- How many of the first `n` ticks are overflows. -/
def overflowCount : Nat → State → Nat
  | 0, _ => 0
  | n + 1, s => overflowCount n s + (if overflowsNow (ticks n s) then 1 else 0)

end Sys2Proof.Machine
end

