-- ==== Sys2Proof/Certificates/Slice0/Obligations.lean ====
section
/-! DEFINITION. The statements for the provers, one definition each. A docstring names the rule of spec/ the statement
is; "the law the spec derives" marks a sentence the spec itself infers from other rules. `reply` and `draws` are fields
of the model, not of the block (log 4, log 9), and a fault or refusal is the record of 10_state R41 (log 2). -/

open Sys2Proof Sys2Proof.Machine

/-! ## Motor operations -/

/-- 40_motor R106: DRIVE. -/
def Obligations.DriveResult : Prop :=
  decodeUnit [0x57] = .drive ∧ ∀ s : State,
    (DirClocksOn s → BothStopped s.car →
      ∃ t, exec .drive s = .next t ∧ MotorOutcome ⟨⟨600, .forward⟩, ⟨600, .forward⟩⟩ .ok s t) ∧
    (DirClocksOn s → ¬ BothStopped s.car →
      ∃ t, exec .drive s = .next t ∧ MotorOutcome s.car .noTransition s t) ∧
    (¬ DirClocksOn s → exec .drive s = .next (faulted .gpioClockOff s))

/-- 40_motor R118: REVERSE. -/
def Obligations.ReverseResult : Prop :=
  decodeUnit [0x52] = .reverse ∧ ∀ s : State,
    (DirClocksOn s → BothStopped s.car →
      ∃ t, exec .reverse s = .next t ∧ MotorOutcome ⟨⟨600, .backward⟩, ⟨600, .backward⟩⟩ .ok s t) ∧
    (DirClocksOn s → ¬ BothStopped s.car →
      ∃ t, exec .reverse s = .next t ∧ MotorOutcome s.car .noTransition s t) ∧
    (¬ DirClocksOn s → exec .reverse s = .next (faulted .gpioClockOff s))

/-- 40_motor R108: ACCELERATE, each side from its own duty. -/
def Obligations.AccelerateResult : Prop :=
  decodeUnit [0x45] = .accelerate ∧ ∀ s : State,
    (DirClocksOn s → ∃ t, exec .accelerate s = .next t ∧ OneStepUp s.car.left t.car.left ∧
      OneStepUp s.car.right t.car.right ∧ MotorOutcome t.car .ok s t) ∧
    (¬ DirClocksOn s → exec .accelerate s = .next (faulted .gpioClockOff s))

/-- The law the spec derives at R109: from BASE_DUTY, the k-th ACCELERATE gives 600 + 30k for k up to 14, and 1023 from the 15th on; the
direction stays. -/
def Obligations.AccelerateSaturates : Prop :=
  ∀ (run : Nat → State) (dir : Dir),
    DirClocksOn (run 0) → (run 0).car = ⟨⟨600, dir⟩, ⟨600, dir⟩⟩ →
    (∀ k, exec .accelerate (run k) = .next (run (k + 1))) →
    ∀ k, ((run k).car.left.duty.toNat = if k ≤ 14 then 600 + 30 * k else 1023) ∧
      (run k).car.right = (run k).car.left ∧ (run k).car.left.dir = dir

/-- 40_motor R110: BRAKE. -/
def Obligations.BrakeResult : Prop :=
  decodeUnit [0x53] = .brake ∧ ∀ s : State,
    (DirClocksOn s → ∃ t, exec .brake s = .next t ∧ OneStepDown s.car.left t.car.left ∧
      OneStepDown s.car.right t.car.right ∧ MotorOutcome t.car .ok s t) ∧
    (¬ DirClocksOn s → exec .brake s = .next (faulted .gpioClockOff s))

/-- 40_motor R112: STOP. -/
def Obligations.StopResult : Prop :=
  decodeUnit [0x46] = .stop ∧ ∀ s : State,
    (DirClocksOn s →
      ∃ t, exec .stop s = .next t ∧ MotorOutcome ⟨⟨0, .stopped⟩, ⟨0, .stopped⟩⟩ .ok s t) ∧
    (¬ DirClocksOn s → exec .stop s = .next (faulted .gpioClockOff s))

/-- The law the spec derives at R113: a second STOP changes nothing. -/
def Obligations.StopIsIdempotent : Prop :=
  ∀ s t : State, DirClocksOn s → exec .stop s = .next t →
    t.car = ⟨⟨0, .stopped⟩, ⟨0, .stopped⟩⟩ ∧ exec .stop t = .next t

/-- 40_motor R114: TURN_LEFT. -/
def Obligations.TurnLeftResult : Prop :=
  decodeUnit [0x41] = .turnLeft ∧ ∀ s : State,
    (DirClocksOn s → ∃ t, exec .turnLeft s = .next t ∧ OneStepDown s.car.left t.car.left ∧
      t.car.right = s.car.right ∧ MotorOutcome t.car .ok s t) ∧
    (¬ DirClocksOn s → exec .turnLeft s = .next (faulted .gpioClockOff s))

/-- 40_motor R116: TURN_RIGHT. -/
def Obligations.TurnRightResult : Prop :=
  decodeUnit [0x44] = .turnRight ∧ ∀ s : State,
    (DirClocksOn s → ∃ t, exec .turnRight s = .next t ∧ OneStepDown s.car.right t.car.right ∧
      t.car.left = s.car.left ∧ MotorOutcome t.car .ok s t) ∧
    (¬ DirClocksOn s → exec .turnRight s = .next (faulted .gpioClockOff s))

/-- The law the spec derives at R115: a TURN is BRAKE restricted to its side. -/
def Obligations.TurnIsBrakeOnOneSide : Prop :=
  ∀ s b l r : State, DirClocksOn s →
    exec .brake s = .next b → exec .turnLeft s = .next l → exec .turnRight s = .next r →
    l.car = ⟨b.car.left, s.car.right⟩ ∧ r.car = ⟨s.car.left, b.car.right⟩

/-- What the spec derives at R117: a TURN gives a moving motor no new direction but STOPPED, raises no duty and starts no motor. -/
def Obligations.TurnNeverStartsOrRaises : Prop :=
  ∀ (s t : State) (i : Instr), (i = .turnLeft ∨ i = .turnRight) → (∀ side, MotorOk (s.car.motor side)) →
    exec i s = .next t → ∀ side,
      ((t.car.motor side).dir = (s.car.motor side).dir ∨ (t.car.motor side).dir = .stopped) ∧
      (t.car.motor side).duty.toNat ≤ (s.car.motor side).duty.toNat ∧
      ((s.car.motor side).dir = .stopped → t.car.motor side = s.car.motor side)

/-- 30_encoding R75: after a motor operation, or BOOT_DONE in phase BOOT, the latches of four distinct direction pins
hold the code of the direction; (1, 1) is no code. -/
def Obligations.DirectionPinsFollowCar : Prop :=
  ∀ (s t : State) (i : Instr),
    (i ∈ [Instr.drive, .accelerate, .brake, .stop, .turnLeft, .turnRight, .reverse] ∨
      (i = .bootDone ∧ s.phase = .boot)) →
    DirClocksOn s → DirPinsDistinct s.cfg.pinMap → exec i s = .next t → ∀ side,
      ((t.car.motor side).dir = .forward → t.dirLatches side = (some true, some false)) ∧
      ((t.car.motor side).dir = .backward → t.dirLatches side = (some false, some true)) ∧
      ((t.car.motor side).dir = .stopped → t.dirLatches side = (some false, some false))

/-- The latches of direction pins that PIN_MAP may map to one physical pin (10_state R39): the last write of the order in
60_exceptions R229 stays, though 40_motor R103 says the order is not observable (log 13). -/
def Obligations.SharedDirectionPins : Prop :=
  ∀ (s t : State) (i : Instr),
    (i ∈ [Instr.drive, .accelerate, .brake, .stop, .turnLeft, .turnRight, .reverse] ∨
      (i = .bootDone ∧ s.phase = .boot)) →
    DirClocksOn s → exec i s = .next t → ∀ q, t.pin q = reflectedPin s.cfg.pinMap t.car q (s.pin q)

/-- 40_motor R120: BOOT_DONE. -/
def Obligations.BootDoneResult : Prop :=
  (∀ c pin a b, decodeCtrl c ⟨0x20, pin, a, b⟩ = .ok .bootDone) ∧ ∀ s : State,
    (s.phase ≠ .boot → exec .bootDone s = .next (refusedFor .bootDoneTwice s)) ∧
    (s.phase = .boot → DirClocksOn s →
      ∃ t, exec .bootDone s = .next t ∧ MotorOutcome s.car .ok { s with phase := .idle } t) ∧
    (s.phase = .boot → ¬ DirClocksOn s → exec .bootDone s = .next (faulted .gpioClockOff s))

/-- 40_motor R123: an unrecognized unit. -/
def Obligations.UnrecognizedResult : Prop :=
  ∀ (u : List Byte) (s : State),
    exec (.unrecognized u) s = .next { s with diag := s.diag ++ [.unrecognizedCommand], reply := none }

/-- What the spec derives at R121: the motor operations keep the invariant of 10_state R22. -/
def Obligations.MotorOperationsKeepMotorInvariant : Prop :=
  ∀ (s t : State) (i : Instr),
    i ∈ [Instr.drive, .accelerate, .brake, .stop, .turnLeft, .turnRight, .reverse] →
    (∀ side, MotorOk (s.car.motor side)) → exec i s = .next t → ∀ side, MotorOk (t.car.motor side)

/-- Of what the spec derives at R122, the half that says no other duty is reached: every step keeps the duties among 0 and those of
[300, 1023] that are 0 or 3 modulo 30. -/
def Obligations.StepKeepsReachableDuties : Prop :=
  ∀ s t : State, (∀ side, MotorOk (s.car.motor side) ∧ ReachableDuty (s.car.motor side).duty.toNat) →
    step s = .next t → ∀ side, MotorOk (t.car.motor side) ∧ ReachableDuty (t.car.motor side).duty.toNat

/-- What 95_test_vectors section 3 derives: what the motor operations do does not depend on the audio path, the phase or
the environment. -/
def Obligations.MotorPathIgnoresAudio : Prop :=
  ∀ (s₁ s₂ t₁ t₂ : State) (i : Instr),
    i ∈ [Instr.drive, .accelerate, .brake, .stop, .turnLeft, .turnRight, .reverse] →
    s₁.cfg = s₂.cfg → s₁.car = s₂.car → s₁.pwm = s₂.pwm → s₁.gpio = s₂.gpio → s₁.clk = s₂.clk →
    exec i s₁ = .next t₁ → exec i s₂ = .next t₂ →
    t₁.car = t₂.car ∧ t₁.pwm = t₂.pwm ∧ t₁.gpio = t₂.gpio ∧ t₁.reply = t₂.reply

/-! ## Honk -/

/-- 41_audio R172: HONK, the first step. The index after the arm is the free value of the next draw, of which nothing is known (log 7);
the count of draws is the model's own (log 9). -/
def Obligations.HonkResult : Prop :=
  decodeUnit [0x48] = .honk ∧ ∀ s : State,
    (s.lut = none → exec .honk s = .next (faulted .lutUninit s)) ∧
    (s.lut ≠ none → s.dma.state = .idle → exec .honk s = .next
      { s with
        dma := ⟨.armed, some (Config.armStart s.draws)⟩, phase := .honkBusy, draws := s.draws + 1, reply := none }) ∧
    (s.lut ≠ none → s.dma.state = .armed → exec .honk s = .next { s with phase := .honkBusy, reply := none })

/-- The honk end step of 41_audio R173, enabled exactly in phase HONK_BUSY; elsewhere a move of the schedule
that names it changes nothing (log 5). That it is taken at some time is `FairRunEndsHonk`. -/
def Obligations.HonkEndResult : Prop :=
  ∀ (s : State) (ms : List Move), s.fault = none → s.refusal = none → s.sched = .honkEnd :: ms →
    (s.phase = .honkBusy → step s = .next
      { s with sched := ms, dma := ⟨.idle, s.dma.idx⟩, phase := .idle, reply := some ⟨.ok, none⟩ }) ∧
    (s.phase ≠ .honkBusy → step s = .next { s with sched := ms })

/-- The law the spec derives at R174: a whole honk, with any number of ticks between its two steps. A tick needs a
configured timer; a honk without one moves no sample (70_reset_and_hazards R263). -/
def Obligations.HonkLeavesMotorsAlone : Prop :=
  ∀ (s t : State) (n : Nat) (T : Vector Nat tableLen), s.lut = some T →
    (n ≠ 0 → s.tim.psc ≠ none ∧ s.tim.arr ≠ none) → exec .honk s = .next t →
    ∃ v, runMove .honkEnd (ticks n t) = .next v ∧
      v.car = s.car ∧ v.pwm = s.pwm ∧ v.gpio = s.gpio ∧ v.dma.state = .idle ∧ v.phase = .idle ∧
      (overflowCount n t = 0 → v.dac = s.dac) ∧
      (overflowCount n t ≠ 0 → ∃ i : Fin tableLen, v.dma.idx = some (i + 1) ∧ v.dac.data = some T[i])

/-! ## GPIO operations -/

/-- 42_gpio R192: GPIO_MODE. -/
def Obligations.GpioModeResult : Prop :=
  ∀ (s : State) (pin : PinName) (v : Nat) (q : PhysPin), s.cfg.pinMap.lookup pin = some q →
    (∀ id b, decodePin s.cfg id = .ok pin → decodeCtrl s.cfg ⟨0x01, id, v, b⟩ = .ok (.gpioMode pin v)) ∧
    (v ≤ 3 → ∃ t, exec (.gpioMode pin v) s = .next t ∧
      EnabledAndWritten q (fun f => { f with mode := some (BitVec.ofNat 2 v) }) s t) ∧
    (4 ≤ v → exec (.gpioMode pin v) s = .next (invalidated s))

/-- 42_gpio R193: GPIO_PULL. -/
def Obligations.GpioPullResult : Prop :=
  ∀ (s : State) (pin : PinName) (v : Nat) (q : PhysPin), s.cfg.pinMap.lookup pin = some q →
    (∀ id b, decodePin s.cfg id = .ok pin → decodeCtrl s.cfg ⟨0x02, id, v, b⟩ = .ok (.gpioPull pin v)) ∧
    (v ≤ 2 → s.clockOn q.port = true → ∃ t, exec (.gpioPull pin v) s = .next t ∧
      WrittenOnly q (fun f => { f with pull := some (BitVec.ofNat 2 v) }) s t) ∧
    (v ≤ 2 → s.clockOn q.port = false → exec (.gpioPull pin v) s = .next (faulted .gpioClockOff s)) ∧
    (3 ≤ v → exec (.gpioPull pin v) s = .next (invalidated s))

/-- 42_gpio R194: GPIO_OTYPE. -/
def Obligations.GpioOtypeResult : Prop :=
  ∀ (s : State) (pin : PinName) (v : Nat) (q : PhysPin), s.cfg.pinMap.lookup pin = some q →
    (∀ id b, decodePin s.cfg id = .ok pin → decodeCtrl s.cfg ⟨0x03, id, v, b⟩ = .ok (.gpioOtype pin v)) ∧
    (v ≤ 1 → s.clockOn q.port = true → ∃ t, exec (.gpioOtype pin v) s = .next t ∧
      WrittenOnly q (fun f => { f with otype := some (BitVec.ofNat 1 v) }) s t) ∧
    (v ≤ 1 → s.clockOn q.port = false → exec (.gpioOtype pin v) s = .next (faulted .gpioClockOff s)) ∧
    (2 ≤ v → exec (.gpioOtype pin v) s = .next (invalidated s))

/-- 42_gpio R195: GPIO_SPEED. -/
def Obligations.GpioSpeedResult : Prop :=
  ∀ (s : State) (pin : PinName) (v : Nat) (q : PhysPin), s.cfg.pinMap.lookup pin = some q →
    (∀ id b, decodePin s.cfg id = .ok pin → decodeCtrl s.cfg ⟨0x04, id, v, b⟩ = .ok (.gpioSpeed pin v)) ∧
    (v ≤ 3 → s.clockOn q.port = true → ∃ t, exec (.gpioSpeed pin v) s = .next t ∧
      WrittenOnly q (fun f => { f with speed := some (BitVec.ofNat 2 v) }) s t) ∧
    (v ≤ 3 → s.clockOn q.port = false → exec (.gpioSpeed pin v) s = .next (faulted .gpioClockOff s)) ∧
    (4 ≤ v → exec (.gpioSpeed pin v) s = .next (invalidated s))

/-- 42_gpio R196: GPIO_AF. The pin uses its alternate function only in mode alternate; that a pin whose mode is
unspecified is said to use none is the model's choice (log 32). -/
def Obligations.GpioAfResult : Prop :=
  ∀ (s : State) (pin : PinName) (v : Nat) (q : PhysPin), s.cfg.pinMap.lookup pin = some q →
    (∀ id b, decodePin s.cfg id = .ok pin → decodeCtrl s.cfg ⟨0x05, id, v, b⟩ = .ok (.gpioAf pin v)) ∧
    (v ≤ 15 → ∃ t, exec (.gpioAf pin v) s = .next t ∧
      EnabledAndWritten q (fun f => { f with af := some (BitVec.ofNat 4 v) }) s t ∧
      ∀ n, t.usesFunction q n = true ↔ (s.pin q).mode = some 0b10 ∧ n = BitVec.ofNat 4 v) ∧
    (16 ≤ v → exec (.gpioAf pin v) s = .next (invalidated s))

/-- GPIO_WRITE, the latch write of 42_gpio R197; the driven level is `State.drivenLevel` (log 28). -/
def Obligations.GpioWriteResult : Prop :=
  ∀ (s : State) (pin : PinName) (level : Bool) (q : PhysPin), s.cfg.pinMap.lookup pin = some q →
    (∀ id a, decodePin s.cfg id = .ok pin →
      decodeCtrl s.cfg ⟨0x06, id, a, level.toNat⟩ = .ok (.gpioWrite pin level)) ∧
    (∀ id a b, decodePin s.cfg id = .ok pin → 2 ≤ b → decodeCtrl s.cfg ⟨0x06, id, a, b⟩ = .error .badWriteValue) ∧
    (s.clockOn q.port = true → ∃ t, exec (.gpioWrite pin level) s = .next t ∧
      WrittenOnly q (fun f => { f with out := some level }) s t) ∧
    (s.clockOn q.port = false → exec (.gpioWrite pin level) s = .next (faulted .gpioClockOff s))

/-- 42_gpio R198: GPIO_READ. The level is the free value of the next draw, of which nothing is known (log 8), on an
output pin too; the block's state stays, and the count of draws is the model's own (log 9). -/
def Obligations.GpioReadResult : Prop :=
  ∀ (s : State) (pin : PinName) (q : PhysPin), s.cfg.pinMap.lookup pin = some q →
    (∀ id a b, decodePin s.cfg id = .ok pin → decodeCtrl s.cfg ⟨0x07, id, a, b⟩ = .ok (.gpioRead pin)) ∧
    (s.clockOn q.port = true → exec (.gpioRead pin) s =
      .next { s with draws := s.draws + 1, reply := some ⟨.ok, some (Config.pinLevel s.draws)⟩ }) ∧
    (s.clockOn q.port = false → exec (.gpioRead pin) s = .next (faulted .gpioClockOff s))

/-- An operand that is no PinName is refused before the value and the clock are looked at (60_exceptions R227, R229), by
the decoder and, where no decoder comes before it, by the operation (log 11, log 29). -/
def Obligations.UnknownPinRefused : Prop :=
  ∀ (s : State) (n v a b : Nat) (level : Bool) (sel : Byte), s.cfg.pinMap.others.length ≤ n →
    sel ∈ ([0x01, 0x02, 0x03, 0x04, 0x05, 0x06, 0x07] : List Byte) →
    decodeCtrl s.cfg ⟨sel, n + 7, a, b⟩ = .error .badPin ∧
    ∀ i ∈ [Instr.gpioMode (.other n) v, .gpioPull (.other n) v, .gpioOtype (.other n) v, .gpioSpeed (.other n) v,
        .gpioAf (.other n) v, .gpioWrite (.other n) level, .gpioRead (.other n)],
      exec i s = .next (refusedFor .badPin s)

/-- What the spec derives at 20_memory R57: repeating a configuration operation that returned OK leaves the same state. -/
def Obligations.ConfigurationIsIdempotent : Prop :=
  ∀ (s t : State) (pin : PinName) (v : Nat) (i : Instr),
    i ∈ [Instr.gpioMode pin v, .gpioPull pin v, .gpioOtype pin v, .gpioSpeed pin v, .gpioAf pin v] →
    exec i s = .next t → t.reply = some ⟨.ok, none⟩ → exec i t = .next t

/-! ## LUT, DAC, timer, DMA -/

/-- 41_audio R148, R149, R151: LUT_INIT writes the sine table once. That no entry exceeds FULL_SCALE is what the spec
derives at R149. -/
def Obligations.LutInitResult : Prop :=
  (∀ c pin a b, decodeCtrl c ⟨0x10, pin, a, b⟩ = .ok .lutInit) ∧ ∀ s : State,
    (s.cfg.wf = true → s.lut = none → ∃ T : Vector Nat tableLen,
      exec .lutInit s = .next { s with lut := some T, reply := some ⟨.ok, none⟩ } ∧
      ∀ i : Fin tableLen,
        (i = 0 → s.cfg.fullScale % 2 = 1 → T[i] = s.cfg.lutTie0) ∧
        (i = 50 → s.cfg.fullScale % 2 = 1 → T[i] = s.cfg.lutTie50) ∧
        (¬ ((i = 0 ∨ i = 50) ∧ s.cfg.fullScale % 2 = 1) →
          (T[i] : ℤ) = ⌊(s.cfg.fullScale : ℝ) / 2 * (Real.sin (Real.pi * (i : ℕ) / 50) + 1) + 1 / 2⌋) ∧
        T[i] ≤ s.cfg.fullScale ∧ T[i] < 2 ^ s.cfg.sampleBits) ∧
    (s.lut ≠ none → exec .lutInit s = .next (refusedFor .lutReinit s))

/-- What the spec derives at R152: the symmetries of the table LUT_INIT writes; its maximum FULL_SCALE is at 25, its
minimum 0 at 75. -/
def Obligations.LutSymmetry : Prop :=
  ∀ (s t : State) (T : Vector Nat tableLen), s.cfg.wf = true → s.lut = none → exec .lutInit s = .next t →
    t.lut = some T →
    T[25] = s.cfg.fullScale ∧ T[75] = 0 ∧ (∀ i : Fin tableLen, T[75] ≤ T[i] ∧ T[i] ≤ T[25]) ∧
    ∀ i j k : Fin tableLen, 1 ≤ (i : ℕ) → (i : ℕ) ≤ 49 → (j : ℕ) = 50 - i → (k : ℕ) = 100 - i →
      T[j] = T[i] ∧ T[k] + T[i] = s.cfg.fullScale

/-- 41_audio R168: DAC_ENABLE. -/
def Obligations.DacEnableResult : Prop :=
  (∀ c pin a b, decodeCtrl c ⟨0x11, pin, a, b⟩ = .ok .dacEnable) ∧
  ∀ s : State, exec .dacEnable s = .next { s with dac := ⟨true, s.dac.data⟩, reply := some ⟨.ok, none⟩ }

/-- 41_audio R155: TIM_CLOCK_SET. -/
def Obligations.TimClockSetResult : Prop :=
  (∀ c pin a b, decodeCtrl c ⟨0x12, pin, a, b⟩ = .ok (.timClockSet a b)) ∧ ∀ (s : State) (psc arr : Nat),
    (psc < 2 ^ s.cfg.timerWidth ∧ 1 ≤ arr ∧ arr < 2 ^ s.cfg.timerWidth →
      exec (.timClockSet psc arr) s =
        .next { s with tim := ⟨s.tim.en, some psc, some arr, 0, 0⟩, reply := some ⟨.ok, none⟩ }) ∧
    (¬ (psc < 2 ^ s.cfg.timerWidth ∧ 1 ≤ arr ∧ arr < 2 ^ s.cfg.timerWidth) →
      exec (.timClockSet psc arr) s = .next (refusedFor .timerRange s))

/-- 41_audio R156: TIM_START. -/
def Obligations.TimStartResult : Prop :=
  (∀ c pin a b, decodeCtrl c ⟨0x13, pin, a, b⟩ = .ok .timStart) ∧ ∀ s : State,
    (s.tim.psc = none ∨ s.tim.arr = none → exec .timStart s = .next (faulted .timerUnconfigured s)) ∧
    (s.tim.psc ≠ none ∧ s.tim.arr ≠ none →
      exec .timStart s = .next { s with tim := { s.tim with en := true }, reply := some ⟨.ok, none⟩ })

/-- 41_audio R164: DMA_ARM. The index after an arm is the free value of the next draw, of which nothing is known (log 7);
the count of draws is the model's own (log 9). -/
def Obligations.DmaArmResult : Prop :=
  (∀ c pin a b, decodeCtrl c ⟨0x14, pin, a, b⟩ = .ok .dmaArm) ∧ ∀ s : State,
    (s.lut = none → exec .dmaArm s = .next (faulted .lutUninit s)) ∧
    (s.lut ≠ none → s.dma.state = .armed → exec .dmaArm s = .next { s with reply := some ⟨.ok, none⟩ }) ∧
    (s.lut ≠ none → s.dma.state = .idle → exec .dmaArm s = .next
      { s with
        dma := ⟨.armed, some (Config.armStart s.draws)⟩, draws := s.draws + 1, reply := some ⟨.ok, none⟩ })

/-- 41_audio R165: DMA_DISARM. -/
def Obligations.DmaDisarmResult : Prop :=
  (∀ c pin a b, decodeCtrl c ⟨0x15, pin, a, b⟩ = .ok .dmaDisarm) ∧
  ∀ s : State, exec .dmaDisarm s = .next { s with dma := ⟨.idle, s.dma.idx⟩, reply := some ⟨.ok, none⟩ }

/-- The TIMER's step, the overflow and the transfer in it (41_audio R158, R159, R166). That a scheduled tick of a timer
not running changes nothing but the schedule is the model's choice (log 5). -/
def Obligations.TickResult : Prop :=
  ∀ (s : State) (ms : List Move) (psc arr : Nat), s.fault = none → s.refusal = none → s.sched = .tick :: ms →
    (s.tim.en = false → step s = .next { s with sched := ms }) ∧
    (s.tim.en = true → s.tim.psc = some psc → s.tim.arr = some arr →
      (s.tim.pcnt < psc →
        step s = .next { s with sched := ms, tim := { s.tim with pcnt := s.tim.pcnt + 1 } }) ∧
      (psc ≤ s.tim.pcnt → s.tim.cnt < arr →
        step s = .next { s with sched := ms, tim := { s.tim with pcnt := 0, cnt := s.tim.cnt + 1 } }) ∧
      (psc ≤ s.tim.pcnt → arr ≤ s.tim.cnt → s.dma.state = .idle →
        step s = .next { s with sched := ms, tim := { s.tim with pcnt := 0, cnt := 0 } }) ∧
      (psc ≤ s.tim.pcnt → arr ≤ s.tim.cnt → s.dma.state = .armed →
        ∀ (T : Vector Nat tableLen) (i : Fin tableLen), s.lut = some T → s.dma.idx = some i →
        ∃ j : Fin tableLen, (j : ℕ) = ((i : ℕ) + 1) % 100 ∧
        step s = .next { s with
          sched := ms, tim := { s.tim with pcnt := 0, cnt := 0 },
          dac := ⟨s.dac.en, some T[i]⟩, dma := ⟨.armed, some j⟩ }))

/-- The law the spec derives at R160: from cleared counters, the overflows are on the ticks that are multiples of the period. -/
def Obligations.OverflowsArePeriodic : Prop :=
  ∀ (s : State) (psc arr : Nat), s.tim = ⟨true, some psc, some arr, 0, 0⟩ →
    (s.dma.state = .armed → s.lut ≠ none) → ∀ n,
      (overflowsNow (ticks n s) = true ↔ (n + 1) % ((psc + 1) * (arr + 1)) = 0) ∧
      overflowCount n s = n / ((psc + 1) * (arr + 1))

/-- What the spec derives at R161: after TIM_CLOCK_SET on a running timer, the first overflow comes one full new period later, and the
stream goes on with the next entry. -/
def Obligations.ClockSetRestartsPeriod : Prop :=
  ∀ (s t : State) (psc arr : Nat), s.tim.en = true → (s.dma.state = .armed → s.lut ≠ none) →
    exec (.timClockSet psc arr) s = .next t → t.reply = some ⟨.ok, none⟩ →
    t.dma = s.dma ∧ ∀ n, overflowsNow (ticks n t) = true ↔ (n + 1) % ((psc + 1) * (arr + 1)) = 0

/-- The law the spec derives at R167: while ARMED with index i, the k-th transfer (from 0) writes entry (i + k) mod 100. -/
def Obligations.StreamLaw : Prop :=
  ∀ (s : State) (T : Vector Nat tableLen) (i : Fin tableLen) (psc arr : Nat),
    s.tim.psc = some psc → s.tim.arr = some arr → s.lut = some T → s.dma = ⟨.armed, some i⟩ → ∀ n,
      (ticks n s).dma.state = .armed ∧
      (∃ j : Fin tableLen, (ticks n s).dma.idx = some j ∧ (j : ℕ) = ((i : ℕ) + overflowCount n s) % 100) ∧
      (overflowCount n s = 0 → (ticks n s).dac = s.dac) ∧
      (∀ k, overflowCount n s = k + 1 →
        ∃ h : ((i : ℕ) + k) % 100 < tableLen, (ticks n s).dac = ⟨s.dac.en, some (T[((i : ℕ) + k) % 100]'h)⟩)

/-- The analog output of 41_audio R169; `none` stands for the value the spec leaves unspecified (log 27). -/
def Obligations.AnalogOutputIsDacData : Prop :=
  ∀ (s : State) (v : Nat),
    (s.dac.en = true → s.dac.data = some v → s.analogOutput = some v) ∧
    (s.dac.en = false ∨ s.dac.data = none → s.analogOutput = none)

/-! ## Steps of the machine -/

/-- 40_motor R105: a step runs the operation of the HOST's next unit in phase IDLE, and of the next CTRL record in phases
BOOT and IDLE, on the state from which that unit or record, and the move, are taken; work not accepted stays; a faulted
or refused state accepts nothing. The schedule is the model's, and so is that a scheduled move which is not accepted leaves a
next state without that move (log 5). -/
def Obligations.StepTakesWork : Prop :=
  ∀ (s : State) (ms : List Move),
    (s.fault ≠ none ∨ s.refusal ≠ none → ∀ t, step s ≠ .next t) ∧
    (s.fault = none → s.refusal = none →
      (s.sched = .unit :: ms → ∀ u us, s.hostUnits = u :: us →
        (s.phase = .idle → step s = exec (decodeUnit u) { s with sched := ms, hostUnits := us }) ∧
        (s.phase ≠ .idle → step s = .next { s with sched := ms })) ∧
      (s.sched = .ctrl :: ms → ∀ r rs i, s.ctrlOps = r :: rs → decodeCtrl s.cfg r = .ok i →
        (s.phase ≠ .honkBusy → step s = exec i { s with sched := ms, ctrlOps := rs }) ∧
        (s.phase = .honkBusy → step s = .next { s with sched := ms })))

/-- The decoder's refusals (30_encoding R81) as refusal marks (60_exceptions R227): a step that takes a CTRL record the decoder refuses sets the refusal mark. -/
def Obligations.StepRefusesRecord : Prop :=
  ∀ (s : State) (ms : List Move) (r : CtrlRecord) (rs : List CtrlRecord),
    s.fault = none → s.refusal = none → s.sched = .ctrl :: ms → s.ctrlOps = r :: rs → s.phase ≠ .honkBusy →
    (decodeCtrl s.cfg r = .error .badSelector →
      step s = .next (refusedFor .badSelector { s with sched := ms, ctrlOps := rs })) ∧
    (decodeCtrl s.cfg r = .error .badPin →
      step s = .next (refusedFor .badPin { s with sched := ms, ctrlOps := rs })) ∧
    (decodeCtrl s.cfg r = .error .badWriteValue →
      step s = .next (refusedFor .badWriteValue { s with sched := ms, ctrlOps := rs }))

/-- 60_exceptions R228: after a fault or a refusal no agent steps. -/
def Obligations.StopIsFinal : Prop :=
  ∀ s : State,
    (∀ k, s.fault = some k → step s = .fault k) ∧
    (∀ r, s.fault = none → s.refusal = some r → step s = .refused r)

/-- The invariant of the machine is kept by every step (10_state R22, R24, R30 to R35, 41_audio R166, 20_memory R55). -/
def Obligations.StepKeepsInvariant : Prop :=
  ∀ s t : State, MachineInv s → step s = .next t → MachineInv t

/-- The invariant holds after reset, whatever the parameters, and of `State.reset`. -/
def Obligations.InvariantHoldsAtReset : Prop :=
  (∀ c : Config, c.wf = true → MachineInv (State.resetWith c)) ∧ MachineInv State.reset

/-- 70_reset_and_hazards R260: the values after reset, for every value of the parameters. -/
def Obligations.ResetValues : Prop :=
  ∀ c : Config, ∃ s, State.resetWith c = s ∧ s.cfg = c ∧ s.car = ⟨⟨0, .stopped⟩, ⟨0, .stopped⟩⟩ ∧
    s.pwm = ⟨none, none⟩ ∧ s.phase = .boot ∧ s.lut = none ∧ s.tim = ⟨false, none, none, 0, 0⟩ ∧
    s.dma = ⟨.idle, none⟩ ∧ s.dac = ⟨false, none⟩ ∧ (∀ q, s.pin q = ⟨none, none, none, none, none, none⟩) ∧
    (∀ p, s.clockOn p = false) ∧ s.diag = [] ∧ s.fault = none ∧ s.refused = false

/-- What the spec derives at 20_memory R61: the writers of each component. -/
def Obligations.WritersOfComponents : Prop :=
  (∀ (s t : State) (ms : List Move), s.sched = .tick :: ms → step s = .next t →
    t.car = s.car ∧ t.pwm = s.pwm ∧ t.phase = s.phase ∧ t.lut = s.lut ∧
    t.tim.psc = s.tim.psc ∧ t.tim.arr = s.tim.arr ∧ t.tim.en = s.tim.en ∧
    t.dma.state = s.dma.state ∧ t.dac.en = s.dac.en ∧ t.gpio = s.gpio ∧ t.clk = s.clk) ∧
  (∀ (s t : State) (m : Move) (ms : List Move), s.sched = m :: ms → m ≠ .tick → step s = .next t →
    t.dac.data = s.dac.data ∧ (m = .honkEnd → t.dma.idx = s.dma.idx ∧ t.tim = s.tim ∧ t.lut = s.lut ∧ t.car = s.car)) ∧
  (∀ (s t : State) (i : Instr), exec i s = .next t →
    (i ≠ .lutInit → t.lut = s.lut) ∧
    ((∀ p r, i ≠ .timClockSet p r) → t.tim.pcnt = s.tim.pcnt ∧ t.tim.cnt = s.tim.cnt ∧
      t.tim.psc = s.tim.psc ∧ t.tim.arr = s.tim.arr) ∧
    (i ≠ .dmaArm → i ≠ .honk → t.dma.idx = s.dma.idx) ∧
    (i ∉ [Instr.drive, .accelerate, .brake, .stop, .turnLeft, .turnRight, .reverse] → t.car = s.car))

/-- What no step takes back (10_state R30, R31, R34, R37, R39, R40). -/
def Obligations.NothingTakenBack : Prop :=
  ∀ s t : State, step s = .next t →
    t.cfg = s.cfg ∧ (∀ T, s.lut = some T → t.lut = some T) ∧ (s.tim.en = true → t.tim.en = true) ∧
    (s.dac.en = true → t.dac.en = true) ∧ (∀ p, s.clockOn p = true → t.clockOn p = true) ∧
    ∃ ds, t.diag = s.diag ++ ds

/-! ## Runs -/

/-- Whatever move is scheduled, one that is not enabled changes nothing but the schedule (log 5): the enabling conditions
of a run are those under which a step does anything (20_memory R60). -/
def Obligations.DisabledMoveChangesNothing : Prop :=
  ∀ (s : State) (m : Move) (ms : List Move), s.running = true → s.sched = m :: ms → m.enabled s = false →
    step s = .next { s with sched := ms }

/-- What 41_audio R173 says weak fairness (00_scope R10) guarantees: a honk ends. -/
def Obligations.FairRunEndsHonk : Prop :=
  ∀ (states : Nat → State) (events : Nat → Event) (k : Nat), WeaklyFair states events →
    MachineInv (states k) → (states k).running = true → (states k).phase = .honkBusy →
    ∃ j, k ≤ j ∧ events j = .move .honkEnd ∧ (states (j + 1)).phase = .idle ∧ (states (j + 1)).dma.state = .idle

/-- What 60_exceptions R247 says of weakly fair runs: once the timer is started, and while nothing stops the machine, the
TIMER ticks again and again. -/
def Obligations.FairRunTicksForever : Prop :=
  ∀ (states : Nat → State) (events : Nat → Event) (k : Nat), WeaklyFair states events →
    (∀ j, k ≤ j → (states j).running = true) → (states k).tim.en = true →
    ∀ n, ∃ j, n ≤ j ∧ events j = .move .tick

/-- The third item of decision D1 (00_scope R10): after BOOT_DONE, and while nothing stops the machine, the oldest
unit the HOST has sent is taken, after a honk too. -/
def Obligations.FairRunTakesUnits : Prop :=
  ∀ (states : Nat → State) (events : Nat → Event) (k : Nat), WeaklyFair states events →
    (∀ j, k ≤ j → (states j).running = true) → (states k).phase ≠ .boot → (states k).hostUnits ≠ [] →
    ∃ j, k ≤ j ∧ events j = .move .unit ∧ (states j).hostUnits.head? = (states k).hostUnits.head?

/-! ## Decoding -/

/-- 30_encoding R72, R73: the eight tokens, and every other unit is UNRECOGNIZED. -/
def Obligations.TokenMap : Prop :=
  ∀ u : List Byte, decodeUnit u =
    if u = [0x57] then .drive else if u = [0x45] then .accelerate else if u = [0x53] then .brake
    else if u = [0x46] then .stop else if u = [0x41] then .turnLeft else if u = [0x44] then .turnRight
    else if u = [0x52] then .reverse else if u = [0x48] then .honk else .unrecognized u

/-- 30_encoding R79, R80: the fourteen selectors with the fields each uses, and every other selector is refused. -/
def Obligations.SelectorMap : Prop :=
  ∀ (c : Config) (pin a b : Nat),
    (∀ p, decodePin c pin = .ok p →
      decodeCtrl c ⟨0x01, pin, a, b⟩ = .ok (.gpioMode p a) ∧ decodeCtrl c ⟨0x02, pin, a, b⟩ = .ok (.gpioPull p a) ∧
      decodeCtrl c ⟨0x03, pin, a, b⟩ = .ok (.gpioOtype p a) ∧ decodeCtrl c ⟨0x04, pin, a, b⟩ = .ok (.gpioSpeed p a) ∧
      decodeCtrl c ⟨0x05, pin, a, b⟩ = .ok (.gpioAf p a) ∧
      decodeCtrl c ⟨0x06, pin, a, 0⟩ = .ok (.gpioWrite p false) ∧
      decodeCtrl c ⟨0x06, pin, a, 1⟩ = .ok (.gpioWrite p true) ∧
      decodeCtrl c ⟨0x07, pin, a, b⟩ = .ok (.gpioRead p)) ∧
    decodeCtrl c ⟨0x10, pin, a, b⟩ = .ok .lutInit ∧ decodeCtrl c ⟨0x11, pin, a, b⟩ = .ok .dacEnable ∧
    decodeCtrl c ⟨0x12, pin, a, b⟩ = .ok (.timClockSet a b) ∧ decodeCtrl c ⟨0x13, pin, a, b⟩ = .ok .timStart ∧
    decodeCtrl c ⟨0x14, pin, a, b⟩ = .ok .dmaArm ∧ decodeCtrl c ⟨0x15, pin, a, b⟩ = .ok .dmaDisarm ∧
    decodeCtrl c ⟨0x20, pin, a, b⟩ = .ok .bootDone ∧
    ∀ sel : Byte, sel ∉ ([0x01, 0x02, 0x03, 0x04, 0x05, 0x06, 0x07, 0x10, 0x11, 0x12, 0x13, 0x14, 0x15, 0x20] : List Byte) →
      decodeCtrl c ⟨sel, pin, a, b⟩ = .error .badSelector

/-- Decoding what encodes a well-formed operation gives the operation, with every operand at every value (30_encoding
R70, R73, R79; the pin numbers are the model's, log 11). -/
def Obligations.DecodeEncodeAgree : Prop :=
  ∀ (c : Config) (i : Instr), i.wellFormed c = true → decodeWork c (encode i) = .ok i

/-- The other direction: no bit of a unit is lost, and what a record decodes to is well-formed and decodes to itself. -/
def Obligations.EncodeDecodeAgree : Prop :=
  (∀ u, encode (decodeUnit u) = .unit u) ∧
  ∀ (c : Config) (r : CtrlRecord) (i : Instr), decodeCtrl c r = .ok i →
    i.wellFormed c = true ∧ ∃ r', encode i = .ctrl r' ∧ r'.sel = r.sel ∧ decodeCtrl c r' = .ok i

/-- Words written out from the tables of 30_encoding R73 and R79, as spec/opcode_table.json numbers them; a first byte
that is a selector is read as a record (log 12), and pin number 0 is MOTOR_LEFT_DIR_A (log 11): both are the model's. -/
def Obligations.SampleWordsDecode : Prop :=
  decodeTableWord 8 0b01010111 = some .drive ∧ decodeTableWord 8 0b01001000 = some .honk ∧
  decodeTableWord 8 0b01110111 = some (.unrecognized [0x77]) ∧
  decodeTableWord 8 0b00000001 = some (.gpioMode (.motorDirA .left) 0) ∧
  decodeTableWord 8 0b00010010 = some (.timClockSet 0 0) ∧ decodeTableWord 8 0b00100000 = some .bootDone

/-- The units of a byte stream are its lines without their terminators (30_encoding R71); bytes after the last
terminator are no unit yet (log 6). -/
def Obligations.FramingSplitsLines : Prop :=
  ∀ (us : List (List Byte)) (tail : List Byte), (∀ u ∈ us, (0x0A : Byte) ∉ u) → (0x0A : Byte) ∉ tail →
    unitsOf ((us.map fun u => u ++ [0x0A]).flatten ++ tail) = us
end

