-- ==== Sys2Proof/Laws/State.lean ====
section
/-! SUPPORT. One lemma per field per update of the state. -/

namespace Sys2Proof.Machine

/-! ## returns -/

@[simp] theorem returns_cfg (st : Status) (s : State) : (returns st s).cfg = s.cfg := rfl
@[simp] theorem returns_car (st : Status) (s : State) : (returns st s).car = s.car := rfl
@[simp] theorem returns_pwm (st : Status) (s : State) : (returns st s).pwm = s.pwm := rfl
@[simp] theorem returns_phase (st : Status) (s : State) : (returns st s).phase = s.phase := rfl
@[simp] theorem returns_lut (st : Status) (s : State) : (returns st s).lut = s.lut := rfl
@[simp] theorem returns_tim (st : Status) (s : State) : (returns st s).tim = s.tim := rfl
@[simp] theorem returns_dma (st : Status) (s : State) : (returns st s).dma = s.dma := rfl
@[simp] theorem returns_dac (st : Status) (s : State) : (returns st s).dac = s.dac := rfl
@[simp] theorem returns_gpio (st : Status) (s : State) : (returns st s).gpio = s.gpio := rfl
@[simp] theorem returns_clk (st : Status) (s : State) : (returns st s).clk = s.clk := rfl
@[simp] theorem returns_diag (st : Status) (s : State) : (returns st s).diag = s.diag := rfl
@[simp] theorem returns_fault (st : Status) (s : State) : (returns st s).fault = s.fault := rfl
@[simp] theorem returns_refusal (st : Status) (s : State) : (returns st s).refusal = s.refusal := rfl
@[simp] theorem returns_hostUnits (st : Status) (s : State) : (returns st s).hostUnits = s.hostUnits := rfl
@[simp] theorem returns_ctrlOps (st : Status) (s : State) : (returns st s).ctrlOps = s.ctrlOps := rfl
@[simp] theorem returns_sched (st : Status) (s : State) : (returns st s).sched = s.sched := rfl
@[simp] theorem returns_draws (st : Status) (s : State) : (returns st s).draws = s.draws := rfl
@[simp] theorem returns_reply (st : Status) (s : State) : (returns st s).reply = some ⟨st, none⟩ := rfl

/-! ## returnsLevel -/

@[simp] theorem returnsLevel_cfg (l : Bool) (s : State) : (returnsLevel l s).cfg = s.cfg := rfl
@[simp] theorem returnsLevel_car (l : Bool) (s : State) : (returnsLevel l s).car = s.car := rfl
@[simp] theorem returnsLevel_pwm (l : Bool) (s : State) : (returnsLevel l s).pwm = s.pwm := rfl
@[simp] theorem returnsLevel_phase (l : Bool) (s : State) : (returnsLevel l s).phase = s.phase := rfl
@[simp] theorem returnsLevel_lut (l : Bool) (s : State) : (returnsLevel l s).lut = s.lut := rfl
@[simp] theorem returnsLevel_tim (l : Bool) (s : State) : (returnsLevel l s).tim = s.tim := rfl
@[simp] theorem returnsLevel_dma (l : Bool) (s : State) : (returnsLevel l s).dma = s.dma := rfl
@[simp] theorem returnsLevel_dac (l : Bool) (s : State) : (returnsLevel l s).dac = s.dac := rfl
@[simp] theorem returnsLevel_gpio (l : Bool) (s : State) : (returnsLevel l s).gpio = s.gpio := rfl
@[simp] theorem returnsLevel_clk (l : Bool) (s : State) : (returnsLevel l s).clk = s.clk := rfl
@[simp] theorem returnsLevel_diag (l : Bool) (s : State) : (returnsLevel l s).diag = s.diag := rfl
@[simp] theorem returnsLevel_fault (l : Bool) (s : State) : (returnsLevel l s).fault = s.fault := rfl
@[simp] theorem returnsLevel_refusal (l : Bool) (s : State) : (returnsLevel l s).refusal = s.refusal := rfl
@[simp] theorem returnsLevel_hostUnits (l : Bool) (s : State) : (returnsLevel l s).hostUnits = s.hostUnits := rfl
@[simp] theorem returnsLevel_ctrlOps (l : Bool) (s : State) : (returnsLevel l s).ctrlOps = s.ctrlOps := rfl
@[simp] theorem returnsLevel_sched (l : Bool) (s : State) : (returnsLevel l s).sched = s.sched := rfl
@[simp] theorem returnsLevel_draws (l : Bool) (s : State) : (returnsLevel l s).draws = s.draws := rfl
@[simp] theorem returnsLevel_reply (l : Bool) (s : State) : (returnsLevel l s).reply = some ⟨.ok, some l⟩ := rfl

/-! ## returnsNothing -/

@[simp] theorem returnsNothing_cfg (s : State) : (returnsNothing s).cfg = s.cfg := rfl
@[simp] theorem returnsNothing_car (s : State) : (returnsNothing s).car = s.car := rfl
@[simp] theorem returnsNothing_pwm (s : State) : (returnsNothing s).pwm = s.pwm := rfl
@[simp] theorem returnsNothing_phase (s : State) : (returnsNothing s).phase = s.phase := rfl
@[simp] theorem returnsNothing_lut (s : State) : (returnsNothing s).lut = s.lut := rfl
@[simp] theorem returnsNothing_tim (s : State) : (returnsNothing s).tim = s.tim := rfl
@[simp] theorem returnsNothing_dma (s : State) : (returnsNothing s).dma = s.dma := rfl
@[simp] theorem returnsNothing_dac (s : State) : (returnsNothing s).dac = s.dac := rfl
@[simp] theorem returnsNothing_gpio (s : State) : (returnsNothing s).gpio = s.gpio := rfl
@[simp] theorem returnsNothing_clk (s : State) : (returnsNothing s).clk = s.clk := rfl
@[simp] theorem returnsNothing_diag (s : State) : (returnsNothing s).diag = s.diag := rfl
@[simp] theorem returnsNothing_fault (s : State) : (returnsNothing s).fault = s.fault := rfl
@[simp] theorem returnsNothing_refusal (s : State) : (returnsNothing s).refusal = s.refusal := rfl
@[simp] theorem returnsNothing_hostUnits (s : State) : (returnsNothing s).hostUnits = s.hostUnits := rfl
@[simp] theorem returnsNothing_ctrlOps (s : State) : (returnsNothing s).ctrlOps = s.ctrlOps := rfl
@[simp] theorem returnsNothing_sched (s : State) : (returnsNothing s).sched = s.sched := rfl
@[simp] theorem returnsNothing_draws (s : State) : (returnsNothing s).draws = s.draws := rfl
@[simp] theorem returnsNothing_reply (s : State) : (returnsNothing s).reply = none := rfl

/-! ## raise -/

@[simp] theorem raise_cfg (k : Fault) (s : State) : (raise k s).cfg = s.cfg := rfl
@[simp] theorem raise_car (k : Fault) (s : State) : (raise k s).car = s.car := rfl
@[simp] theorem raise_pwm (k : Fault) (s : State) : (raise k s).pwm = s.pwm := rfl
@[simp] theorem raise_phase (k : Fault) (s : State) : (raise k s).phase = s.phase := rfl
@[simp] theorem raise_lut (k : Fault) (s : State) : (raise k s).lut = s.lut := rfl
@[simp] theorem raise_tim (k : Fault) (s : State) : (raise k s).tim = s.tim := rfl
@[simp] theorem raise_dma (k : Fault) (s : State) : (raise k s).dma = s.dma := rfl
@[simp] theorem raise_dac (k : Fault) (s : State) : (raise k s).dac = s.dac := rfl
@[simp] theorem raise_gpio (k : Fault) (s : State) : (raise k s).gpio = s.gpio := rfl
@[simp] theorem raise_clk (k : Fault) (s : State) : (raise k s).clk = s.clk := rfl
@[simp] theorem raise_diag (k : Fault) (s : State) : (raise k s).diag = s.diag := rfl
@[simp] theorem raise_fault (k : Fault) (s : State) : (raise k s).fault = some k := rfl
@[simp] theorem raise_refusal (k : Fault) (s : State) : (raise k s).refusal = s.refusal := rfl
@[simp] theorem raise_hostUnits (k : Fault) (s : State) : (raise k s).hostUnits = s.hostUnits := rfl
@[simp] theorem raise_ctrlOps (k : Fault) (s : State) : (raise k s).ctrlOps = s.ctrlOps := rfl
@[simp] theorem raise_sched (k : Fault) (s : State) : (raise k s).sched = s.sched := rfl
@[simp] theorem raise_draws (k : Fault) (s : State) : (raise k s).draws = s.draws := rfl
@[simp] theorem raise_reply (k : Fault) (s : State) : (raise k s).reply = none := rfl

/-! ## refuse -/

@[simp] theorem refuse_cfg (r : Refusal) (s : State) : (refuse r s).cfg = s.cfg := rfl
@[simp] theorem refuse_car (r : Refusal) (s : State) : (refuse r s).car = s.car := rfl
@[simp] theorem refuse_pwm (r : Refusal) (s : State) : (refuse r s).pwm = s.pwm := rfl
@[simp] theorem refuse_phase (r : Refusal) (s : State) : (refuse r s).phase = s.phase := rfl
@[simp] theorem refuse_lut (r : Refusal) (s : State) : (refuse r s).lut = s.lut := rfl
@[simp] theorem refuse_tim (r : Refusal) (s : State) : (refuse r s).tim = s.tim := rfl
@[simp] theorem refuse_dma (r : Refusal) (s : State) : (refuse r s).dma = s.dma := rfl
@[simp] theorem refuse_dac (r : Refusal) (s : State) : (refuse r s).dac = s.dac := rfl
@[simp] theorem refuse_gpio (r : Refusal) (s : State) : (refuse r s).gpio = s.gpio := rfl
@[simp] theorem refuse_clk (r : Refusal) (s : State) : (refuse r s).clk = s.clk := rfl
@[simp] theorem refuse_diag (r : Refusal) (s : State) : (refuse r s).diag = s.diag := rfl
@[simp] theorem refuse_fault (r : Refusal) (s : State) : (refuse r s).fault = s.fault := rfl
@[simp] theorem refuse_refusal (r : Refusal) (s : State) : (refuse r s).refusal = some r := rfl
@[simp] theorem refuse_hostUnits (r : Refusal) (s : State) : (refuse r s).hostUnits = s.hostUnits := rfl
@[simp] theorem refuse_ctrlOps (r : Refusal) (s : State) : (refuse r s).ctrlOps = s.ctrlOps := rfl
@[simp] theorem refuse_sched (r : Refusal) (s : State) : (refuse r s).sched = s.sched := rfl
@[simp] theorem refuse_draws (r : Refusal) (s : State) : (refuse r s).draws = s.draws := rfl
@[simp] theorem refuse_reply (r : Refusal) (s : State) : (refuse r s).reply = none := rfl

/-! ## emit -/

@[simp] theorem emit_cfg (k : DiagKind) (s : State) : (emit k s).cfg = s.cfg := rfl
@[simp] theorem emit_car (k : DiagKind) (s : State) : (emit k s).car = s.car := rfl
@[simp] theorem emit_pwm (k : DiagKind) (s : State) : (emit k s).pwm = s.pwm := rfl
@[simp] theorem emit_phase (k : DiagKind) (s : State) : (emit k s).phase = s.phase := rfl
@[simp] theorem emit_lut (k : DiagKind) (s : State) : (emit k s).lut = s.lut := rfl
@[simp] theorem emit_tim (k : DiagKind) (s : State) : (emit k s).tim = s.tim := rfl
@[simp] theorem emit_dma (k : DiagKind) (s : State) : (emit k s).dma = s.dma := rfl
@[simp] theorem emit_dac (k : DiagKind) (s : State) : (emit k s).dac = s.dac := rfl
@[simp] theorem emit_gpio (k : DiagKind) (s : State) : (emit k s).gpio = s.gpio := rfl
@[simp] theorem emit_clk (k : DiagKind) (s : State) : (emit k s).clk = s.clk := rfl
@[simp] theorem emit_diag (k : DiagKind) (s : State) : (emit k s).diag = s.diag ++ [k] := rfl
@[simp] theorem emit_fault (k : DiagKind) (s : State) : (emit k s).fault = s.fault := rfl
@[simp] theorem emit_refusal (k : DiagKind) (s : State) : (emit k s).refusal = s.refusal := rfl
@[simp] theorem emit_hostUnits (k : DiagKind) (s : State) : (emit k s).hostUnits = s.hostUnits := rfl
@[simp] theorem emit_ctrlOps (k : DiagKind) (s : State) : (emit k s).ctrlOps = s.ctrlOps := rfl
@[simp] theorem emit_sched (k : DiagKind) (s : State) : (emit k s).sched = s.sched := rfl
@[simp] theorem emit_draws (k : DiagKind) (s : State) : (emit k s).draws = s.draws := rfl
@[simp] theorem emit_reply (k : DiagKind) (s : State) : (emit k s).reply = s.reply := rfl

/-! ## updatePin -/

@[simp] theorem updatePin_cfg (q : PhysPin) (f : PinFields → PinFields) (s : State) : (updatePin q f s).cfg = s.cfg := rfl
@[simp] theorem updatePin_car (q : PhysPin) (f : PinFields → PinFields) (s : State) : (updatePin q f s).car = s.car := rfl
@[simp] theorem updatePin_pwm (q : PhysPin) (f : PinFields → PinFields) (s : State) : (updatePin q f s).pwm = s.pwm := rfl
@[simp] theorem updatePin_phase (q : PhysPin) (f : PinFields → PinFields) (s : State) : (updatePin q f s).phase = s.phase := rfl
@[simp] theorem updatePin_lut (q : PhysPin) (f : PinFields → PinFields) (s : State) : (updatePin q f s).lut = s.lut := rfl
@[simp] theorem updatePin_tim (q : PhysPin) (f : PinFields → PinFields) (s : State) : (updatePin q f s).tim = s.tim := rfl
@[simp] theorem updatePin_dma (q : PhysPin) (f : PinFields → PinFields) (s : State) : (updatePin q f s).dma = s.dma := rfl
@[simp] theorem updatePin_dac (q : PhysPin) (f : PinFields → PinFields) (s : State) : (updatePin q f s).dac = s.dac := rfl
@[simp] theorem updatePin_gpio (q : PhysPin) (f : PinFields → PinFields) (s : State) : (updatePin q f s).gpio = storePin q (f (s.pin q)) s.gpio := rfl
@[simp] theorem updatePin_clk (q : PhysPin) (f : PinFields → PinFields) (s : State) : (updatePin q f s).clk = s.clk := rfl
@[simp] theorem updatePin_diag (q : PhysPin) (f : PinFields → PinFields) (s : State) : (updatePin q f s).diag = s.diag := rfl
@[simp] theorem updatePin_fault (q : PhysPin) (f : PinFields → PinFields) (s : State) : (updatePin q f s).fault = s.fault := rfl
@[simp] theorem updatePin_refusal (q : PhysPin) (f : PinFields → PinFields) (s : State) : (updatePin q f s).refusal = s.refusal := rfl
@[simp] theorem updatePin_hostUnits (q : PhysPin) (f : PinFields → PinFields) (s : State) : (updatePin q f s).hostUnits = s.hostUnits := rfl
@[simp] theorem updatePin_ctrlOps (q : PhysPin) (f : PinFields → PinFields) (s : State) : (updatePin q f s).ctrlOps = s.ctrlOps := rfl
@[simp] theorem updatePin_sched (q : PhysPin) (f : PinFields → PinFields) (s : State) : (updatePin q f s).sched = s.sched := rfl
@[simp] theorem updatePin_draws (q : PhysPin) (f : PinFields → PinFields) (s : State) : (updatePin q f s).draws = s.draws := rfl
@[simp] theorem updatePin_reply (q : PhysPin) (f : PinFields → PinFields) (s : State) : (updatePin q f s).reply = s.reply := rfl

/-! ## enableClock -/

@[simp] theorem enableClock_cfg (p : Nat) (s : State) : (enableClock p s).cfg = s.cfg := rfl
@[simp] theorem enableClock_car (p : Nat) (s : State) : (enableClock p s).car = s.car := rfl
@[simp] theorem enableClock_pwm (p : Nat) (s : State) : (enableClock p s).pwm = s.pwm := rfl
@[simp] theorem enableClock_phase (p : Nat) (s : State) : (enableClock p s).phase = s.phase := rfl
@[simp] theorem enableClock_lut (p : Nat) (s : State) : (enableClock p s).lut = s.lut := rfl
@[simp] theorem enableClock_tim (p : Nat) (s : State) : (enableClock p s).tim = s.tim := rfl
@[simp] theorem enableClock_dma (p : Nat) (s : State) : (enableClock p s).dma = s.dma := rfl
@[simp] theorem enableClock_dac (p : Nat) (s : State) : (enableClock p s).dac = s.dac := rfl
@[simp] theorem enableClock_gpio (p : Nat) (s : State) : (enableClock p s).gpio = s.gpio := rfl
@[simp] theorem enableClock_clk (p : Nat) (s : State) : (enableClock p s).clk = insertPort p s.clk := rfl
@[simp] theorem enableClock_diag (p : Nat) (s : State) : (enableClock p s).diag = s.diag := rfl
@[simp] theorem enableClock_fault (p : Nat) (s : State) : (enableClock p s).fault = s.fault := rfl
@[simp] theorem enableClock_refusal (p : Nat) (s : State) : (enableClock p s).refusal = s.refusal := rfl
@[simp] theorem enableClock_hostUnits (p : Nat) (s : State) : (enableClock p s).hostUnits = s.hostUnits := rfl
@[simp] theorem enableClock_ctrlOps (p : Nat) (s : State) : (enableClock p s).ctrlOps = s.ctrlOps := rfl
@[simp] theorem enableClock_sched (p : Nat) (s : State) : (enableClock p s).sched = s.sched := rfl
@[simp] theorem enableClock_draws (p : Nat) (s : State) : (enableClock p s).draws = s.draws := rfl
@[simp] theorem enableClock_reply (p : Nat) (s : State) : (enableClock p s).reply = s.reply := rfl

/-! ## disarmed -/

@[simp] theorem disarmed_cfg (s : State) : (disarmed s).cfg = s.cfg := rfl
@[simp] theorem disarmed_car (s : State) : (disarmed s).car = s.car := rfl
@[simp] theorem disarmed_pwm (s : State) : (disarmed s).pwm = s.pwm := rfl
@[simp] theorem disarmed_phase (s : State) : (disarmed s).phase = s.phase := rfl
@[simp] theorem disarmed_lut (s : State) : (disarmed s).lut = s.lut := rfl
@[simp] theorem disarmed_tim (s : State) : (disarmed s).tim = s.tim := rfl
@[simp] theorem disarmed_dma (s : State) : (disarmed s).dma = ⟨.idle, s.dma.idx⟩ := rfl
@[simp] theorem disarmed_dac (s : State) : (disarmed s).dac = s.dac := rfl
@[simp] theorem disarmed_gpio (s : State) : (disarmed s).gpio = s.gpio := rfl
@[simp] theorem disarmed_clk (s : State) : (disarmed s).clk = s.clk := rfl
@[simp] theorem disarmed_diag (s : State) : (disarmed s).diag = s.diag := rfl
@[simp] theorem disarmed_fault (s : State) : (disarmed s).fault = s.fault := rfl
@[simp] theorem disarmed_refusal (s : State) : (disarmed s).refusal = s.refusal := rfl
@[simp] theorem disarmed_hostUnits (s : State) : (disarmed s).hostUnits = s.hostUnits := rfl
@[simp] theorem disarmed_ctrlOps (s : State) : (disarmed s).ctrlOps = s.ctrlOps := rfl
@[simp] theorem disarmed_sched (s : State) : (disarmed s).sched = s.sched := rfl
@[simp] theorem disarmed_draws (s : State) : (disarmed s).draws = s.draws := rfl
@[simp] theorem disarmed_reply (s : State) : (disarmed s).reply = s.reply := rfl

/-! ## honkEnd -/

@[simp] theorem honkEnd_cfg (s : State) : (honkEnd s).cfg = s.cfg := rfl
@[simp] theorem honkEnd_car (s : State) : (honkEnd s).car = s.car := rfl
@[simp] theorem honkEnd_pwm (s : State) : (honkEnd s).pwm = s.pwm := rfl
@[simp] theorem honkEnd_phase (s : State) : (honkEnd s).phase = .idle := rfl
@[simp] theorem honkEnd_lut (s : State) : (honkEnd s).lut = s.lut := rfl
@[simp] theorem honkEnd_tim (s : State) : (honkEnd s).tim = s.tim := rfl
@[simp] theorem honkEnd_dma (s : State) : (honkEnd s).dma = ⟨.idle, s.dma.idx⟩ := rfl
@[simp] theorem honkEnd_dac (s : State) : (honkEnd s).dac = s.dac := rfl
@[simp] theorem honkEnd_gpio (s : State) : (honkEnd s).gpio = s.gpio := rfl
@[simp] theorem honkEnd_clk (s : State) : (honkEnd s).clk = s.clk := rfl
@[simp] theorem honkEnd_diag (s : State) : (honkEnd s).diag = s.diag := rfl
@[simp] theorem honkEnd_fault (s : State) : (honkEnd s).fault = s.fault := rfl
@[simp] theorem honkEnd_refusal (s : State) : (honkEnd s).refusal = s.refusal := rfl
@[simp] theorem honkEnd_hostUnits (s : State) : (honkEnd s).hostUnits = s.hostUnits := rfl
@[simp] theorem honkEnd_ctrlOps (s : State) : (honkEnd s).ctrlOps = s.ctrlOps := rfl
@[simp] theorem honkEnd_sched (s : State) : (honkEnd s).sched = s.sched := rfl
@[simp] theorem honkEnd_draws (s : State) : (honkEnd s).draws = s.draws := rfl
@[simp] theorem honkEnd_reply (s : State) : (honkEnd s).reply = some ⟨.ok, none⟩ := rfl

end Sys2Proof.Machine
end

