-- ==== Sys2Proof/Laws/Ops.lean ====
section
/-! SUPPORT. What the shared operations do: the GPIO space and its canonical form, output reflection, the motor step,
the duty arithmetic, and operations on a logical pin. -/

namespace Sys2Proof.Machine

/-! ## The GPIO space -/

theorem pinLt_irrefl (p : PhysPin) : pinLt p p = false := by simp [pinLt]

theorem pinLt_trans {p q r : PhysPin} (h : pinLt p q = true) (h' : pinLt q r = true) : pinLt p r = true := by
  simp only [pinLt, decide_eq_true_eq] at *
  omega

theorem pinLt_of_ne {p q : PhysPin} (h : p ≠ q) (h' : pinLt p q ≠ true) : pinLt q p = true := by
  obtain ⟨a, b⟩ := p
  obtain ⟨c, d⟩ := q
  simp only [pinLt, decide_eq_true_eq, ne_eq, PhysPin.mk.injEq] at *
  omega

/-- The head of the list is below every other pin. -/
abbrev BelowAll (p : PhysPin) (l : List (PhysPin × PinFields)) : Prop := ∀ e ∈ l, pinLt p e.1 = true

theorem lookupPin_of_belowAll {p : PhysPin} : ∀ {l : List (PhysPin × PinFields)}, BelowAll p l →
    lookupPin l p = PinFields.fresh
  | [], _ => rfl
  | (q, g) :: rest, h => by
    have hne : p ≠ q := by
      rintro rfl
      simpa [pinLt_irrefl] using h (p, g) (by simp)
    simp only [lookupPin, hne, if_false]
    exact lookupPin_of_belowAll (fun e he => h e (by simp [he]))

theorem pinsWf_cons {q : PhysPin} {g : PinFields} {l : List (PhysPin × PinFields)} :
    pinsWf ((q, g) :: l) = true ↔ g ≠ PinFields.fresh ∧ BelowAll q l ∧ pinsWf l = true := by
  simp [pinsWf, BelowAll, and_assoc]

/-- A pin just written reads as written. -/
theorem lookupPin_storePin_same {p : PhysPin} {f : PinFields} :
    ∀ {l : List (PhysPin × PinFields)}, pinsWf l = true ∨ f ≠ PinFields.fresh → lookupPin (storePin p f l) p = f
  | [], _ => by
    by_cases hf : f = PinFields.fresh <;> simp [storePin, lookupPin, hf]
  | (q, g) :: rest, h => by
    by_cases hf : f = PinFields.fresh
    · have hw : g ≠ PinFields.fresh ∧ BelowAll q rest ∧ pinsWf rest = true := by
        rcases h with h | h
        · exact pinsWf_cons.1 h
        · exact absurd hf h
      by_cases hpq : p = q
      · subst hpq
        simp [storePin, hf, lookupPin_of_belowAll hw.2.1]
      · by_cases hlt : pinLt p q = true
        · have hb : BelowAll p rest := fun e he => pinLt_trans hlt (hw.2.1 e he)
          simp [storePin, hpq, hlt, hf, lookupPin, lookupPin_of_belowAll hb]
        · simpa [storePin, hpq, hlt, lookupPin, hf] using lookupPin_storePin_same (p := p) (f := f) (.inl hw.2.2)
    · by_cases hpq : p = q
      · simp [storePin, hpq, hf, lookupPin]
      · by_cases hlt : pinLt p q = true
        · simp [storePin, hpq, hlt, hf, lookupPin]
        · simpa [storePin, hpq, hlt, lookupPin] using lookupPin_storePin_same (p := p) (l := rest) (.inr hf)

/-- Writing a pin leaves every other pin alone. -/
theorem lookupPin_storePin_other {p r : PhysPin} {f : PinFields} (h : r ≠ p) :
    ∀ {l : List (PhysPin × PinFields)}, lookupPin (storePin p f l) r = lookupPin l r
  | [] => by
    by_cases hf : f = PinFields.fresh <;> simp [storePin, lookupPin, hf, h]
  | (q, g) :: rest => by
    by_cases hpq : p = q
    · subst hpq
      by_cases hf : f = PinFields.fresh <;> simp [storePin, lookupPin, hf, h]
    · by_cases hlt : pinLt p q = true
      · by_cases hf : f = PinFields.fresh <;> simp [storePin, lookupPin, hpq, hlt, hf, h]
      · simp only [storePin, hpq, if_false, hlt, lookupPin]
        by_cases hr : r = q
        · simp [hr, lookupPin]
        · simp [hr, lookupPin, lookupPin_storePin_other h (l := rest)]

theorem belowAll_storePin {q p : PhysPin} {f : PinFields} (hqp : pinLt q p = true) :
    ∀ {l : List (PhysPin × PinFields)}, BelowAll q l → BelowAll q (storePin p f l)
  | [], _ => by
    by_cases hf : f = PinFields.fresh <;> simp [storePin, hf, BelowAll, hqp]
  | (r, g) :: rest, h => by
    have hr : pinLt q r = true := h (r, g) (by simp)
    have hrest : BelowAll q rest := fun e he => h e (by simp [he])
    intro e he
    by_cases hpr : p = r
    · by_cases hf : f = PinFields.fresh
      · simp only [storePin, hpr, if_true, hf] at he
        exact hrest e he
      · simp only [storePin, hpr, if_true, hf, if_false, List.mem_cons] at he
        rcases he with rfl | he
        · exact hr
        · exact hrest e he
    · by_cases hlt : pinLt p r = true
      · by_cases hf : f = PinFields.fresh
        · simp only [storePin, hpr, if_false, hlt, if_true, hf] at he
          exact h e he
        · simp only [storePin, hpr, if_false, hlt, if_true, hf, List.mem_cons] at he
          rcases he with rfl | rfl | he
          · exact hqp
          · exact hr
          · exact hrest e he
      · have he' : e ∈ (r, g) :: storePin p f rest := by simpa [storePin, hpr, hlt] using he
        rcases List.mem_cons.1 he' with rfl | he'
        · exact hr
        · exact belowAll_storePin hqp hrest e he'

/-- Writing a pin keeps the canonical form. -/
theorem pinsWf_storePin {p : PhysPin} {f : PinFields} :
    ∀ {l : List (PhysPin × PinFields)}, pinsWf l = true → pinsWf (storePin p f l) = true
  | [], _ => by
    by_cases hf : f = PinFields.fresh <;> simp [storePin, hf, pinsWf]
  | (q, g) :: rest, h => by
    obtain ⟨hg, hb, hw⟩ := pinsWf_cons.1 h
    by_cases hpq : p = q
    · subst hpq
      by_cases hf : f = PinFields.fresh
      · simpa [storePin, hf] using hw
      · simpa [storePin, hf] using pinsWf_cons.2 ⟨hf, hb, hw⟩
    · by_cases hlt : pinLt p q = true
      · by_cases hf : f = PinFields.fresh
        · simpa [storePin, hpq, hlt, hf] using h
        · have hbp : BelowAll p ((q, g) :: rest) := by
            intro e he
            rcases List.mem_cons.1 he with rfl | he
            · exact hlt
            · exact pinLt_trans hlt (hb e he)
          simpa [storePin, hpq, hlt, hf] using pinsWf_cons.2 ⟨hf, hbp, h⟩
      · simpa [storePin, hpq, hlt] using
          pinsWf_cons.2 ⟨hg, belowAll_storePin (pinLt_of_ne hpq hlt) hb, pinsWf_storePin (p := p) (f := f) hw⟩

/-- Writing the fields a pin already holds, once written, changes nothing. -/
theorem storePin_storePin {p : PhysPin} {f : PinFields} (hf : f ≠ PinFields.fresh) :
    ∀ {l : List (PhysPin × PinFields)}, storePin p f (storePin p f l) = storePin p f l
  | [] => by simp [storePin, hf]
  | (q, g) :: rest => by
    by_cases hpq : p = q
    · simp [storePin, hpq, hf]
    · by_cases hlt : pinLt p q = true
      · simp [storePin, hpq, hlt, hf]
      · simp [storePin, hpq, hlt, storePin_storePin hf (l := rest)]

theorem mem_insertPort {p r : Nat} : ∀ {l : List Nat}, r ∈ insertPort p l ↔ r = p ∨ r ∈ l
  | [] => by simp [insertPort]
  | q :: rest => by
    by_cases hpq : p = q
    · simp [insertPort, hpq]
    · by_cases hlt : p < q
      · simp [insertPort, hpq, hlt]
      · simp only [insertPort, hpq, if_false, hlt, List.mem_cons, mem_insertPort (l := rest)]
        tauto

/-- Enabling a port keeps the canonical form of the enabled ports. -/
theorem portsWf_insertPort {p : Nat} : ∀ {l : List Nat}, portsWf l = true → portsWf (insertPort p l) = true
  | [], _ => by simp [insertPort, portsWf]
  | q :: rest, h => by
    simp only [portsWf, Bool.and_eq_true, List.all_eq_true, decide_eq_true_eq] at h
    by_cases hpq : p = q
    · simpa [insertPort, hpq, portsWf] using h
    · by_cases hlt : p < q
      · simp only [insertPort, hpq, if_false, hlt, if_true, portsWf, Bool.and_eq_true, List.all_eq_true,
          decide_eq_true_eq, List.mem_cons]
        exact ⟨by rintro r (rfl | hr); exacts [hlt, hlt.trans (h.1 r hr)], h⟩
      · simp only [insertPort, hpq, if_false, hlt, portsWf, Bool.and_eq_true, List.all_eq_true, decide_eq_true_eq]
        refine ⟨fun r hr => ?_, portsWf_insertPort h.2⟩
        rcases mem_insertPort.1 hr with rfl | hr
        · omega
        · exact h.1 r hr

/-- Enabling an enabled port changes nothing: the enable is idempotent (10_state R37). -/
theorem insertPort_of_mem {p : Nat} : ∀ {l : List Nat}, portsWf l = true → p ∈ l → insertPort p l = l
  | [], _, h => by simp at h
  | q :: rest, hw, h => by
    simp only [portsWf, Bool.and_eq_true, List.all_eq_true, decide_eq_true_eq] at hw
    by_cases hpq : p = q
    · simp [insertPort, hpq]
    · have hm : p ∈ rest := by simpa [hpq] using h
      have hlt : ¬ p < q := by have := hw.1 p hm; omega
      simp [insertPort, hpq, hlt, insertPort_of_mem hw.2 hm]

/-- Enabling a port twice is enabling it once (10_state R37). -/
theorem insertPort_insertPort {p : Nat} : ∀ {l : List Nat}, insertPort p (insertPort p l) = insertPort p l
  | [] => by simp [insertPort]
  | q :: rest => by
    by_cases hpq : p = q
    · simp [insertPort, hpq]
    · by_cases hlt : p < q
      · simp [insertPort, hpq, hlt]
      · simp [insertPort, hpq, hlt, insertPort_insertPort (l := rest)]

theorem pin_updatePin_other {q r : PhysPin} (f : PinFields → PinFields) (s : State) (h : r ≠ q) :
    (updatePin q f s).pin r = s.pin r :=
  lookupPin_storePin_other h

theorem pin_updatePin_same (q : PhysPin) (f : PinFields → PinFields) (s : State)
    (h : f (s.pin q) ≠ PinFields.fresh) : (updatePin q f s).pin q = f (s.pin q) :=
  lookupPin_storePin_same (.inr h)

@[simp] theorem clockOn_updatePin (q : PhysPin) (f : PinFields → PinFields) (s : State) (p : Nat) :
    (updatePin q f s).clockOn p = s.clockOn p := rfl

@[simp] theorem pin_enableClock (p : Nat) (s : State) (q : PhysPin) : (enableClock p s).pin q = s.pin q := rfl

theorem clockOn_enableClock (p r : Nat) (s : State) :
    (enableClock p s).clockOn r = (s.clockOn r || decide (r = p)) := by
  simp [State.clockOn, mem_insertPort, Bool.decide_or, Bool.or_comm]

/-! ## Faults -/

theorem raise_eq_faulted (k : Fault) (s : State) : raise k s = faulted k s := rfl

theorem refuse_eq_refusedFor (r : Refusal) (s : State) : refuse r s = refusedFor r s := rfl

/-! ## Output reflection -/

/-- A latch write changes one latch, or faults and changes nothing. -/
theorem writeLatch_on {q : PhysPin} {s : State} (l : Bool) (h : s.clockOn q.port = true) :
    writeLatch q l s = .ok (updatePin q (PinFields.setOut l) s) := by
  simp [writeLatch, h]

theorem writeLatch_off {q : PhysPin} {s : State} (l : Bool) (h : s.clockOn q.port = false) :
    writeLatch q l s = .error .gpioClockOff := by
  simp [writeLatch, h]

@[simp] theorem setOut_setOut (a b : Bool) (f : PinFields) : (f.setOut a).setOut b = f.setOut b := rfl

theorem pin_latched (q r : PhysPin) (l : Bool) (s : State) :
    (updatePin q (PinFields.setOut l) s).pin r =
      if r = q then (s.pin r).setOut l else s.pin r := by
  split
  · next h => subst h; exact pin_updatePin_same _ _ _ (by simp [PinFields.setOut, PinFields.fresh])
  · next h => exact pin_updatePin_other _ _ h

/-- The state reflection leaves where no clock it needs is off. -/
def reflectedState (s : State) : State :=
  let m := s.cfg.pinMap
  let write (q : PhysPin) (l : Bool) := updatePin q (PinFields.setOut l)
  let t := write m.leftDirA (dirCode s.car.left.dir).1 { s with pwm := ⟨some s.car.left.duty, s.pwm.right⟩ }
  let t := write m.leftDirB (dirCode s.car.left.dir).2 t
  let t := write m.rightDirA (dirCode s.car.right.dir).1
    { t with pwm := ⟨some s.car.left.duty, some s.car.right.duty⟩ }
  write m.rightDirB (dirCode s.car.right.dir).2 t

theorem reflectedState_frame (s : State) : reflectedState s =
    { s with pwm := ⟨some s.car.left.duty, some s.car.right.duty⟩, gpio := (reflectedState s).gpio } := rfl

theorem reflectedState_pin (s : State) (q : PhysPin) :
    (reflectedState s).pin q = reflectedPin s.cfg.pinMap s.car q (s.pin q) := by
  have pwmPin : ∀ (t : State) (w : Pwm) (r : PhysPin), ({ t with pwm := w } : State).pin r = t.pin r :=
    fun _ _ _ => rfl
  simp only [reflectedState, pin_latched, pwmPin, reflectedPin]
  split_ifs <;> simp

/-- Every step of reflection keeps the canonical form. -/
theorem reflectedState_pinsWf (s : State) (h : pinsWf s.gpio = true) : pinsWf (reflectedState s).gpio = true :=
  pinsWf_storePin (pinsWf_storePin (pinsWf_storePin (pinsWf_storePin h)))

/-- Reflection with the clocks of the direction pins on. -/
theorem reflect_on {s : State} (h : DirClocksOn s) : reflect s = .ok (reflectedState s) := by
  obtain ⟨h1, h2, h3, h4⟩ := h
  have left : reflectSide .left s = .ok (updatePin s.cfg.pinMap.leftDirB (PinFields.setOut (dirCode s.car.left.dir).2)
      (updatePin s.cfg.pinMap.leftDirA (PinFields.setOut (dirCode s.car.left.dir).1)
        { s with pwm := ⟨some s.car.left.duty, s.pwm.right⟩ })) := by
    unfold reflectSide
    rw [writeLatch_on _ (by exact h1)]
    exact writeLatch_on _ h2
  unfold reflect
  rw [left]
  simp only [reflectSide]
  rw [writeLatch_on _ (by exact h3)]
  exact writeLatch_on _ h4

theorem writeLatch_error {q : PhysPin} {l : Bool} {s : State} {k : Fault} (h : writeLatch q l s = .error k) :
    k = .gpioClockOff := by
  unfold writeLatch at h
  split_ifs at h
  exact (Except.error.inj h).symm

theorem writeLatch_ok {q : PhysPin} {l : Bool} {s t : State} (h : writeLatch q l s = .ok t) :
    s.clockOn q.port = true ∧ t = updatePin q (PinFields.setOut l) s := by
  unfold writeLatch at h
  split_ifs at h with hc
  exact ⟨hc, (Except.ok.inj h).symm⟩

theorem reflectSide_error {side : Side} {s : State} {k : Fault} (h : reflectSide side s = .error k) :
    k = .gpioClockOff := by
  unfold reflectSide at h
  split at h
  · next e he => rw [← Except.error.inj h]; exact writeLatch_error he
  · exact writeLatch_error h

/-- Reflection of one side keeps the clocks and the parameters, and needs the clocks of its two pins. -/
theorem reflectSide_ok {side : Side} {s t : State} (h : reflectSide side s = .ok t) :
    t.clk = s.clk ∧ t.cfg = s.cfg ∧ s.clockOn (s.cfg.pinMap.dirA side).port = true ∧
      s.clockOn (s.cfg.pinMap.dirB side).port = true := by
  unfold reflectSide at h
  split at h
  · simp at h
  · next u hu =>
    obtain ⟨ha, rfl⟩ := writeLatch_ok hu
    obtain ⟨hb, rfl⟩ := writeLatch_ok h
    exact ⟨rfl, rfl, ha, hb⟩

/-- Reflection with the clock of a direction pin off. -/
theorem reflect_off {s : State} (h : ¬ DirClocksOn s) : reflect s = .error .gpioClockOff := by
  unfold reflect
  split
  · next k hk => rw [reflectSide_error hk]
  · next t ht =>
    obtain ⟨hclk, hcfg, hA, hB⟩ := reflectSide_ok ht
    cases hr : reflectSide .right t with
    | error k => rw [reflectSide_error hr]
    | ok u =>
      obtain ⟨-, -, hC, hD⟩ := reflectSide_ok hr
      simp only [State.clockOn, hclk, hcfg] at hC hD
      exact absurd ⟨hA, hB, hC, hD⟩ h

/-- Reflection writes latches only, and those of distinct direction pins hold the code of the direction. -/
theorem reflectedPin_shape (m : PinMap) (c : Car) (q : PhysPin) (f : PinFields) :
    reflectedPin m c q f = { f with out := (reflectedPin m c q f).out } ∧ (¬ IsDirPin m q → reflectedPin m c q f = f) := by
  unfold reflectedPin IsDirPin
  refine ⟨by split_ifs <;> rfl, fun h => ?_⟩
  simp only [not_or] at h
  simp [h]

theorem reflectedPin_latches {m : PinMap} (h : DirPinsDistinct m) (c : Car) (f : PhysPin → PinFields) :
    (reflectedPin m c m.leftDirA (f m.leftDirA)).out = some (dirCode c.left.dir).1 ∧
    (reflectedPin m c m.leftDirB (f m.leftDirB)).out = some (dirCode c.left.dir).2 ∧
    (reflectedPin m c m.rightDirA (f m.rightDirA)).out = some (dirCode c.right.dir).1 ∧
    (reflectedPin m c m.rightDirB (f m.rightDirB)).out = some (dirCode c.right.dir).2 := by
  obtain ⟨h1, h2, h3, h4, h5, h6⟩ := h
  simp [reflectedPin, PinFields.setOut, h1, h2, h3, h4, h5, h6]

/-- The latch every pin holds after a motor step with the clocks on, shared pins among them (log 13). -/
theorem msmStep_pin {sem : Car → Car × Status} {s : State} (h : DirClocksOn s) (q : PhysPin) :
    (msmStep sem s).pin q = reflectedPin s.cfg.pinMap (sem s.car).1 q (s.pin q) := by
  have hr : reflect { s with car := (sem s.car).1 } = .ok (reflectedState { s with car := (sem s.car).1 }) :=
    reflect_on h
  simp only [msmStep, hr, settle]
  exact reflectedState_pin { s with car := (sem s.car).1 } q

/-- A state with reflected pins and duties is the outcome of a motor operation. -/
theorem motorOutcome_of_pins {c : Car} {st : Status} {s t : State} (hcar : t.car = c)
    (hpwm : t.pwm = ⟨some c.left.duty, some c.right.duty⟩) (hreply : t.reply = some ⟨st, none⟩)
    (hframe : t = { s with car := t.car, pwm := t.pwm, gpio := t.gpio, reply := t.reply })
    (hpins : ∀ q, t.pin q = reflectedPin s.cfg.pinMap c q (s.pin q)) : MotorOutcome c st s t := by
  have hcfg : t.cfg = s.cfg := by rw [hframe]
  refine ⟨hcar, hpwm, hreply, fun hd => ?_, fun q => ?_, hframe⟩
  · obtain ⟨h1, h2, h3, h4⟩ := reflectedPin_latches hd c (fun q => s.pin q)
    simp only [State.dirLatches, hcfg, hpins, PinMap.dirA, PinMap.dirB, h1, h2, h3, h4, and_self]
  · rw [hpins]
    exact reflectedPin_shape s.cfg.pinMap c q (s.pin q)

/-- A motor step with the clocks on: the new CarState, its reflection and the status, nothing else. -/
theorem msmStep_on {sem : Car → Car × Status} {s : State} (h : DirClocksOn s) :
    MotorOutcome (sem s.car).1 (sem s.car).2 s (msmStep sem s) := by
  have hr : reflect { s with car := (sem s.car).1 } = .ok (reflectedState { s with car := (sem s.car).1 }) :=
    reflect_on h
  have hp := msmStep_pin (sem := sem) h
  simp only [msmStep, hr, settle] at hp ⊢
  exact motorOutcome_of_pins rfl rfl rfl rfl hp

/-- A motor step with a clock off: the fault, nothing else. -/
theorem msmStep_off {sem : Car → Car × Status} {s : State} (h : ¬ DirClocksOn s) :
    msmStep sem s = faulted .gpioClockOff s := by
  have hr : reflect { s with car := (sem s.car).1 } = .error .gpioClockOff := reflect_off h
  simp [msmStep, hr, settle, raise_eq_faulted]

theorem msmStep_pinsWf (sem : Car → Car × Status) {s : State} (h : pinsWf s.gpio = true) :
    pinsWf (msmStep sem s).gpio = true := by
  by_cases hc : DirClocksOn s
  · have hr : reflect { s with car := (sem s.car).1 } = .ok (reflectedState { s with car := (sem s.car).1 }) :=
      reflect_on hc
    simpa [msmStep, hr, settle] using reflectedState_pinsWf { s with car := (sem s.car).1 } h
  · simpa [msmStep_off hc, faulted] using h

/-! ## Duties -/

theorem duty_lt (m : Motor) : m.duty.toNat < 1024 := m.duty.isLt

/-- A proposal one STEP up: collapse below MIN_DUTY, saturation at MAX_DUTY. -/
theorem propose_up (m : Motor) : OneStepUp m (m.propose (m.duty.toNat + (stepDuty : Int))) := by
  have hlt := duty_lt m
  constructor
  · intro h
    have : clampDuty (m.duty.toNat + (stepDuty : Int)) = 0 := by
      simp only [clampDuty, minDuty, stepDuty]; omega
    simp [Motor.propose, this, Motor.halted]
  · intro h
    have hc : clampDuty (m.duty.toNat + (stepDuty : Int)) = ((min (m.duty.toNat + 30) 1023 : Nat) : Int) := by
      simp only [clampDuty, minDuty, stepDuty, maxDuty]; omega
    have hne : ((min (m.duty.toNat + 30) 1023 : Nat) : Int) ≠ 0 := by omega
    simp only [Motor.propose, hc, hne, if_false, true_and, BitVec.ofInt_natCast, BitVec.toNat_ofNat]
    omega

/-- A proposal one STEP down. -/
theorem propose_down (m : Motor) : OneStepDown m (m.propose (m.duty.toNat + -(stepDuty : Int))) := by
  have hlt := duty_lt m
  constructor
  · intro h
    have : clampDuty (m.duty.toNat + -(stepDuty : Int)) = 0 := by
      simp only [clampDuty, minDuty, stepDuty]; omega
    simp [Motor.propose, this, Motor.halted]
  · intro h
    have hc : clampDuty (m.duty.toNat + -(stepDuty : Int)) = ((m.duty.toNat - 30 : Nat) : Int) := by
      simp only [clampDuty, minDuty, stepDuty, maxDuty]; omega
    have hne : ((m.duty.toNat - 30 : Nat) : Int) ≠ 0 := by omega
    simp only [Motor.propose, hc, hne, if_false, true_and, BitVec.ofInt_natCast, BitVec.toNat_ofNat]
    omega

/-- A proposed duty keeps the invariant of a motor (40_motor R121). -/
theorem propose_motorOk {m : Motor} (h : MotorOk m) (delta : Int) (hd : delta ≤ stepDuty) :
    MotorOk (m.propose (m.duty.toNat + delta)) := by
  have hlt := duty_lt m
  by_cases hc : clampDuty (m.duty.toNat + delta) = 0
  · simp [Motor.propose, hc, MotorOk, Motor.halted]
  · have hrange : 300 ≤ clampDuty (m.duty.toNat + delta) ∧ clampDuty (m.duty.toNat + delta) ≤ 1023 := by
      simp only [clampDuty, minDuty, maxDuty] at hc ⊢
      omega
    obtain ⟨n, hn⟩ : ∃ n : Nat, clampDuty (m.duty.toNat + delta) = n := ⟨_, (Int.toNat_of_nonneg (by omega)).symm⟩
    have hd0 : m.duty.toNat ≠ 0 := by
      intro h0
      simp only [h0, clampDuty, minDuty, stepDuty] at hc hd
      omega
    have hdir : m.dir ≠ .stopped := fun hs => hd0 (by simp [h.1.2 hs])
    rw [hn] at hrange
    have hn' : (BitVec.ofNat 10 n).toNat = n := by simp; omega
    have hz : BitVec.ofNat 10 n ≠ 0 := by
      intro hz; have := congrArg BitVec.toNat hz; rw [hn'] at this; simp at this; omega
    have hcn : ¬ ((n : Int) = 0) := by omega
    simp only [Motor.propose, hn, hcn, if_false, MotorOk, BitVec.ofInt_natCast, hdir, hz, hn', minDuty,
      maxDuty, true_and]
    exact fun _ => by omega

@[simp] theorem bump_left (c : Car) (d : Int) :
    c.bump d .left = ⟨c.left.propose (c.left.duty.toNat + d), c.right⟩ := rfl

@[simp] theorem bump_right (c : Car) (d : Int) :
    c.bump d .right = ⟨c.left, c.right.propose (c.right.duty.toNat + d)⟩ := rfl

/-- ACCELERATE moves each side one STEP up (40_motor R108). -/
theorem bumped_up (c : Car) : OneStepUp c.left ((c.bump stepDuty .left).bump stepDuty .right).left ∧
    OneStepUp c.right ((c.bump stepDuty .left).bump stepDuty .right).right := by
  simp only [bump_right, bump_left]
  exact ⟨propose_up c.left, propose_up c.right⟩

/-- BRAKE moves each side one STEP down (40_motor R110). -/
theorem bumped_down (c : Car) : OneStepDown c.left ((c.bump (-stepDuty) .left).bump (-stepDuty) .right).left ∧
    OneStepDown c.right ((c.bump (-stepDuty) .left).bump (-stepDuty) .right).right := by
  rw [bump_right, bump_left]
  exact ⟨propose_down c.left, propose_down c.right⟩

/-! ## Operations on a logical pin -/

theorem onPin_some {pin : PinName} {q : PhysPin} {s : State} (h : s.cfg.pinMap.lookup pin = some q)
    (act : PhysPin → Except Fault State) : onPin pin s act = settle s (act q) := by simp [onPin, h]

theorem onPin_none {pin : PinName} {s : State} (h : s.cfg.pinMap.lookup pin = none)
    (act : PhysPin → Except Fault State) : onPin pin s act = refusedFor .badPin s := by
  simp [onPin, h, refuse_eq_refusedFor]

theorem lookup_isSome_of_isName {c : Config} {pin : PinName} (h : pin.isName c = true) :
    ∃ q, c.pinMap.lookup pin = some q := by
  cases pin with
  | other n =>
    have hn : n < c.pinMap.others.length := by simpa [PinName.isName] using h
    exact ⟨c.pinMap.others[n], by simp [PinMap.lookup, hn]⟩
  | _ => exact ⟨_, rfl⟩

theorem writeEnabling_spec (q : PhysPin) (f : PinFields → PinFields) (s : State)
    (h : f (s.pin q) ≠ PinFields.fresh) :
    ∃ t, writeEnabling q f s = .ok t ∧ EnabledAndWritten q f s t := by
  refine ⟨_, rfl, ⟨?_, fun r hr => ?_⟩, fun p => ?_, rfl⟩
  · exact pin_updatePin_same q f (enableClock q.port s) h
  · exact pin_updatePin_other f (enableClock q.port s) hr
  · exact clockOn_enableClock q.port p s

theorem writeClocked_on {q : PhysPin} {f : PinFields → PinFields} {s : State} (hc : s.clockOn q.port = true)
    (h : f (s.pin q) ≠ PinFields.fresh) :
    ∃ t, writeClocked q f s = .ok t ∧ WrittenOnly q f s t := by
  refine ⟨returns .ok (updatePin q f s), by simp [writeClocked, hc], ⟨?_, fun r hr => ?_⟩, rfl⟩
  · exact pin_updatePin_same q f s h
  · exact pin_updatePin_other f s hr

theorem writeClocked_off {q : PhysPin} {f : PinFields → PinFields} {s : State} (hc : s.clockOn q.port = false) :
    writeClocked q f s = .error .gpioClockOff := by simp [writeClocked, hc]

end Sys2Proof.Machine
end

