-- ==== Sys2Proof/Laws/Lut.lean ====
section
/-! SUPPORT. The sine table is the one of 41_audio R148 and R149: the winding count is `⌊kθ/π⌋`, the comparison it
decides is the one of the real sine, and the entry found by halving is the rounded real number. -/

namespace Sys2Proof.Machine

open Real

/-- The integers of the recurrence are `f^(k-1) sin(kθ) / sin θ`, and the count is `⌊kθ/π⌋`. -/
theorem winding_spec {f : Nat} {p : Int} {θ : ℝ} (hf : 0 < f) (h0 : 0 < θ) (hπ : θ < π) (hp : (p : ℝ) = f * cos θ) :
    ∀ k : Nat,
      ((winding f p k).1 : ℝ) * π ≤ k * θ ∧ (k : ℝ) * θ < ((winding f p k).1 + 1) * π ∧
      ((winding f p k).2.1 : ℝ) * (sin θ * f) = f ^ k * sin (k * θ) ∧
      ((winding f p k).2.2 : ℝ) * (sin θ * f) = f ^ (k + 1) * sin ((k + 1) * θ)
  | 0 => by simp [winding, pi_pos]; ring
  | k + 1 => by
    obtain ⟨h1, h2, h3, h4⟩ := winding_spec hf h0 hπ hp k
    obtain ⟨w, v, v', hw⟩ : ∃ w v v', winding f p k = (w, v, v') := ⟨_, _, _, rfl⟩
    simp only [hw] at h1 h2 h3 h4
    have hfr : (0 : ℝ) < f := by exact_mod_cast hf
    have hs : 0 < sin θ := sin_pos_of_pos_of_lt_pi h0 hπ
    have hscale : 0 < sin θ * f := mul_pos hs hfr
    -- the sign of the signed integer is that of the sine of the angle left over
    have hsign : 0 < (if w % 2 = 0 then v' else -v') ↔ 0 < sin (((k : ℝ) + 1) * θ - w * π) := by
      rw [sin_sub_nat_mul_pi]
      have hv : 0 < (v' : ℝ) ↔ 0 < sin (((k : ℝ) + 1) * θ) := by
        rw [← mul_pos_iff_of_pos_right hscale, h4, mul_pos_iff_of_pos_left (pow_pos hfr _)]
      have hv' : 0 < -(v' : ℝ) ↔ 0 < -sin (((k : ℝ) + 1) * θ) := by
        rw [← mul_pos_iff_of_pos_right hscale, neg_mul, h4, ← mul_neg, mul_pos_iff_of_pos_left (pow_pos hfr _)]
      rcases Nat.even_or_odd w with he | ho
      · have : w % 2 = 0 := Nat.even_iff.1 he
        rw [if_pos this, he.neg_one_pow, one_mul, ← hv]
        exact Int.cast_pos.symm
      · have : ¬ w % 2 = 0 := by rw [Nat.odd_iff.1 ho]; decide
        rw [if_neg this, ho.neg_one_pow, neg_one_mul, ← hv', ← Int.cast_neg]
        exact Int.cast_pos.symm
    have hsmall : 0 < sin (((k : ℝ) + 1) * θ - w * π) ↔ ((k : ℝ) + 1) * θ < (w + 1) * π := by
      constructor
      · intro h
        by_contra hc
        have : sin (((k : ℝ) + 1) * θ - w * π) = -sin (((k : ℝ) + 1) * θ - w * π - π) := by
          rw [sin_sub_pi]; ring
        rw [this] at h
        have := sin_nonneg_of_nonneg_of_le_pi (x := ((k : ℝ) + 1) * θ - w * π - π) (by linarith) (by nlinarith)
        linarith
      · intro h
        exact sin_pos_of_pos_of_lt_pi (by linarith) (by linarith)
    have hrec : ((2 * p * v' - (f : Int) * f * v : Int) : ℝ) * (sin θ * f) =
        f ^ (k + 2) * sin (((k : ℝ) + 1 + 1) * θ) := by
      have htrig : sin (((k : ℝ) + 1 + 1) * θ) = 2 * cos θ * sin (((k : ℝ) + 1) * θ) - sin (k * θ) := by
        have ha : ((k : ℝ) + 1 + 1) * θ = ((k : ℝ) + 1) * θ + θ := by ring
        have hb : (k : ℝ) * θ = ((k : ℝ) + 1) * θ - θ := by ring
        rw [ha, hb, sin_add, sin_sub]; ring
      have hsplit : ((2 * p * v' - (f : Int) * f * v : Int) : ℝ) * (sin θ * f) =
          2 * p * ((v' : ℝ) * (sin θ * f)) - f * f * ((v : ℝ) * (sin θ * f)) := by push_cast; ring
      rw [hsplit, h3, h4, htrig, hp]; ring
    have hstep : winding f p (k + 1) =
        (if 0 < (if w % 2 = 0 then v' else -v') then w else w + 1, v', 2 * p * v' - (f : Int) * f * v) := by
      simp [winding, hw]
    rw [hstep]
    push_cast at hrec
    by_cases hc : 0 < (if w % 2 = 0 then v' else -v')
    · have hlt := hsmall.1 (hsign.1 hc)
      simp only [hc, if_true]
      push_cast
      exact ⟨by linarith, hlt, h4, hrec⟩
    · have hge : ((w : ℝ) + 1) * π ≤ ((k : ℝ) + 1) * θ := by
        by_contra h
        exact hc (hsign.2 (hsmall.2 (by linarith)))
      simp only [hc, if_false]
      push_cast
      exact ⟨hge, by linarith, h4, hrec⟩

/-- The sine of the table as a cosine between 0 and π. -/
theorem sin_eq_cos_cosineIndex {i : Nat} (hi : i < 100) :
    sin (π * i / 50) = cos (π * (cosineIndex i) / 50) ∧ cosineIndex i ≤ 50 := by
  unfold cosineIndex
  split_ifs with h1 h2
  · refine ⟨?_, by omega⟩
    rw [Nat.cast_sub h1, ← cos_pi_div_two_sub]
    congr 1; push_cast; ring
  · refine ⟨?_, by omega⟩
    rw [Nat.cast_sub (by omega : 25 ≤ i), ← cos_pi_div_two_sub, ← cos_neg]
    congr 1; push_cast; ring
  · refine ⟨?_, by omega⟩
    rw [Nat.cast_sub (by omega : i ≤ 125), ← cos_pi_div_two_sub, ← cos_add_two_pi]
    congr 1; push_cast; ring

/-- What `entryAtLeast` decides, in the real numbers. -/
theorem entryAtLeast_iff {f i k : Nat} (hi : i < 100) (h1 : 1 ≤ k) (hk : k ≤ f) :
    entryAtLeast f i k = true ↔ 2 * (k : ℝ) - 1 - f ≤ f * sin (π * i / 50) := by
  have hf : 0 < f := by omega
  have hfr : (0 : ℝ) < f := by exact_mod_cast hf
  have h1r : (1 : ℝ) ≤ k := by exact_mod_cast h1
  have hkr : (k : ℝ) ≤ f := by exact_mod_cast hk
  obtain ⟨hsin, hm⟩ := sin_eq_cos_cosineIndex hi
  set m := cosineIndex i with hmdef
  set q : ℝ := (2 * (k : ℝ) - 1 - f) / f with hq
  have hlo : -1 < q := by rw [hq, lt_div_iff₀ hfr]; linarith
  have hhi : q < 1 := by rw [hq, div_lt_iff₀ hfr]; linarith
  set θ := arccos q with hθ
  have h0 : 0 < θ := arccos_pos.2 hhi
  have hπ : θ < π := by
    rcases lt_or_eq_of_le (arccos_le_pi q) with h | h
    · exact h
    · exact absurd (arccos_eq_pi.1 h) (by linarith)
  have hcos : cos θ = q := cos_arccos hlo.le hhi.le
  have hp : ((2 * (k : Int) - 1 - f : Int) : ℝ) = f * cos θ := by
    rw [hcos, hq, mul_div_cancel₀ _ hfr.ne']; push_cast; ring
  obtain ⟨ha, hb, -, -⟩ := winding_spec hf h0 hπ hp 50
  rw [entryAtLeast, decide_eq_true_eq, ← hmdef]
  set w := (winding f (2 * (k : Int) - 1 - f) 50).1
  push_cast at ha hb
  have hmr : (m : ℝ) ≤ 50 := by exact_mod_cast hm
  have hang : m ≤ w ↔ π * m / 50 ≤ θ := by
    constructor
    · intro h
      have : (m : ℝ) ≤ w := by exact_mod_cast h
      have := mul_le_mul_of_nonneg_right this pi_pos.le
      linarith
    · intro h
      by_contra hc
      have : (w : ℝ) + 1 ≤ m := by exact_mod_cast Nat.lt_of_not_le hc
      have := mul_le_mul_of_nonneg_right this pi_pos.le
      linarith
  rw [hang, ← strictAntiOn_cos.le_iff_ge (a := θ) (b := π * m / 50) ⟨h0.le, hπ.le⟩
    ⟨by positivity, by nlinarith [pi_pos]⟩, hcos, hsin, hq, div_le_iff₀ hfr, mul_comm (cos _)]

/-- Halving finds the last number of a falling predicate. -/
theorem lastWhere_spec {P : Nat → Bool} {L H : Nat}
    (hP : ∀ a b, L < a → a ≤ b → b < H → P b = true → P a = true) :
    ∀ {fuel lo hi : Nat}, hi ≤ lo + fuel → L ≤ lo → lo < hi → hi ≤ H →
      lo ≤ lastWhere P fuel lo hi ∧ lastWhere P fuel lo hi < hi ∧
      (lastWhere P fuel lo hi ≠ lo → P (lastWhere P fuel lo hi) = true) ∧
      ∀ k, lastWhere P fuel lo hi < k → k < hi → P k = false
  | 0, lo, hi, hfuel, _, hlt, _ => absurd hlt (by omega)
  | fuel + 1, lo, hi, hfuel, hL, hlt, hH => by
    unfold lastWhere
    split_ifs with hend hmid
    · exact ⟨le_rfl, hlt, fun h => absurd rfl h, fun k hk hk' => absurd hk' (by omega)⟩
    · obtain ⟨h1, h2, h3, h4⟩ := lastWhere_spec hP (fuel := fuel) (lo := (lo + hi) / 2) (hi := hi) (by omega) (by omega)
        (by omega) hH
      refine ⟨by omega, h2, fun _ => ?_, h4⟩
      by_cases he : lastWhere P fuel ((lo + hi) / 2) hi = (lo + hi) / 2
      · rw [he]; exact hmid
      · exact h3 he
    · obtain ⟨h1, h2, h3, h4⟩ := lastWhere_spec hP (fuel := fuel) (lo := lo) (hi := (lo + hi) / 2) (by omega) hL
        (by omega) (by omega)
      refine ⟨h1, by omega, h3, fun k hk hk' => ?_⟩
      by_cases hkm : k < (lo + hi) / 2
      · exact h4 k hk hkm
      · by_contra hc
        exact hmid (hP _ k (by omega) (by omega) (by omega) (by simpa using hc))

theorem roundedEntry_le {f : Nat} (i : Nat) (hf : 1 ≤ f) : roundedEntry f i ≤ f := by
  have h : ∀ (fuel lo hi : Nat) (P : Nat → Bool), lo < hi → lastWhere P fuel lo hi < hi := by
    intro fuel
    induction fuel with
    | zero => intro lo hi P h; exact h
    | succ n ih =>
      intro lo hi P h
      unfold lastWhere
      split_ifs
      · exact h
      · exact ih _ _ _ (by omega)
      · exact lt_trans (ih _ _ _ (by omega)) (by omega)
  exact Nat.le_of_lt_succ (h _ _ _ _ (by omega))

/-- The computed entry is the real number of 41_audio R148 rounded to the nearest integer, halves up. -/
theorem roundedEntry_eq_floor {f i : Nat} (hf : 1 ≤ f) (hi : i < 100) :
    (roundedEntry f i : ℤ) = ⌊(f : ℝ) / 2 * (sin (π * i / 50) + 1) + 1 / 2⌋ := by
  have hfr : (1 : ℝ) ≤ f := by exact_mod_cast hf
  have hmono : ∀ a b, 0 < a → a ≤ b → b < f + 1 → entryAtLeast f i b = true → entryAtLeast f i a = true := by
    intro a b ha hab hb h
    rw [entryAtLeast_iff hi (by omega) (by omega)] at h ⊢
    have : (a : ℝ) ≤ b := by exact_mod_cast hab
    linarith
  obtain ⟨-, hlt, hat, habove⟩ := lastWhere_spec hmono (fuel := f + 1) (lo := 0) (hi := f + 1) (by omega) le_rfl
    (by omega) le_rfl
  change roundedEntry f i < f + 1 at hlt
  change roundedEntry f i ≠ 0 → entryAtLeast f i (roundedEntry f i) = true at hat
  change ∀ k, roundedEntry f i < k → k < f + 1 → entryAtLeast f i k = false at habove
  set r := roundedEntry f i
  have hs := neg_one_le_sin (π * i / 50)
  have hs' := sin_le_one (π * i / 50)
  symm
  rw [Int.floor_eq_iff]
  push_cast
  constructor
  · rcases Nat.eq_zero_or_pos r with h0 | h0
    · rw [h0]; push_cast; nlinarith
    · have := (entryAtLeast_iff hi h0 (by omega)).1 (hat (by omega))
      linarith
  · rcases Nat.lt_or_ge r f with h | h
    · have hn := habove (r + 1) (by omega) (by omega)
      rw [← Bool.not_eq_true, entryAtLeast_iff hi (by omega) (by omega)] at hn
      push_cast at hn
      linarith
    · have : (f : ℝ) ≤ r := by exact_mod_cast h
      nlinarith

/-- Apart from the entries 0 and 50, no real number of the table lies halfway between two integers (41_audio R149): a
rational sine of a rational angle is a multiple of 1/2. -/
theorem no_tie {f i : ℕ} (hf : 1 ≤ f) (h1 : 1 ≤ i) (h2 : i ≤ 49) (m : ℤ) :
    (f : ℝ) / 2 * (sin (π * i / 50) + 1) + 1 / 2 ≠ m := by
  intro h
  have hfr : (f : ℝ) ≠ 0 := by positivity
  have hp := pi_pos
  have hang : ((i / 50 : ℚ) : ℝ) * π = π * i / 50 := by push_cast; ring
  have hrat : ∃ q : ℚ, 2 * sin ((i / 50 : ℚ) * π) = q := by
    refine ⟨2 * ((2 * m - 1) / f - 1), ?_⟩
    rw [hang]; push_cast
    field_simp
    linarith
  obtain ⟨k, hk⟩ := (IsIntegral.exists_int_iff_exists_rat (isIntegral_two_mul_sin_rat_mul_pi (i / 50 : ℚ))).1 hrat
  rw [hang] at hk
  have hi1 : (1 : ℝ) ≤ i := by exact_mod_cast h1
  have hi2 : (i : ℝ) ≤ 49 := by exact_mod_cast h2
  have hpos : 0 < sin (π * i / 50) := sin_pos_of_pos_of_lt_pi (by positivity) (by nlinarith)
  have hle := sin_le_one (π * i / 50)
  have hk1 : 0 < k := by exact_mod_cast (by linarith : (0 : ℝ) < k)
  have hk2 : k ≤ 2 := by exact_mod_cast (by linarith : (k : ℝ) ≤ 2)
  interval_cases k
  · have hsin : sin (π * i / 50) = sin (π / 6) := by rw [sin_pi_div_six]; push_cast at hk; linarith
    rcases le_total i 25 with hi | hi
    · have hir : (i : ℝ) ≤ 25 := by exact_mod_cast hi
      have h3 := injOn_sin (x₁ := π * i / 50) (x₂ := π / 6) ⟨by nlinarith, by nlinarith⟩ ⟨by nlinarith, by nlinarith⟩ hsin
      have h4 : (3 * i : ℝ) = 25 := by field_simp at h3; linarith
      have : 3 * i = 25 := by exact_mod_cast h4
      omega
    · have hir : (25 : ℝ) ≤ i := by exact_mod_cast hi
      rw [← sin_pi_sub] at hsin
      have h3 := injOn_sin (x₁ := π - π * i / 50) (x₂ := π / 6) ⟨by nlinarith, by nlinarith⟩ ⟨by nlinarith, by nlinarith⟩
        hsin
      have h4 : (3 * i : ℝ) = 125 := by field_simp at h3; nlinarith
      have : 3 * i = 125 := by exact_mod_cast h4
      omega
  · have hone : sin (π * i / 50) = 1 := by push_cast at hk; linarith
    rw [hone] at h
    have h' : (2 * f + 1 : ℝ) = 2 * m := by linarith
    have : (2 * f + 1 : ℤ) = 2 * m := by exact_mod_cast h'
    omega

theorem lutTable_get (c : Config) (i : Fin tableLen) : (lutTable c)[i] = lutEntry c i := by
  simp [lutTable]

/-- Every entry lies in [0, FULL_SCALE] (41_audio R149). -/
theorem lutEntry_le {c : Config} (h : c.wf = true) (i : Nat) : lutEntry c i ≤ c.fullScale := by
  simp only [Config.wf, Config.tieOk, Bool.and_eq_true, decide_eq_true_eq] at h
  obtain ⟨⟨⟨⟨⟨⟨⟨⟨h1, h2⟩, h3⟩, -⟩, -⟩, -⟩, -⟩, -⟩, -⟩ := h
  unfold lutEntry
  split_ifs with ha hb
  · have := h2 ha.2; omega
  · have := h3 hb.2; omega
  · exact roundedEntry_le i h1

end Sys2Proof.Machine
end

