-- ==== Sys2Proof/Laws/Audio.lean ====
section
/-! SUPPORT. What arming, transferring and ticking can do, once for each. -/

namespace Sys2Proof.Machine

/-- Arming faults without a table, changes nothing while ARMED, and else arms with a drawn index. -/
theorem armed_cases {s t : State} (h : armed s = .ok t) :
    s.lut ≠ none ∧ ((s.dma.state = .armed ∧ t = s) ∨
      (s.dma.state = .idle ∧
        t = { s with dma := ⟨.armed, some (Config.armStart s.draws)⟩, draws := s.draws + 1 })) := by
  unfold armed at h
  split at h
  · simp at h
  · next T hT =>
    refine ⟨by simp [hT], ?_⟩
    split_ifs at h with ha
    · exact .inl ⟨ha, (Except.ok.inj h).symm⟩
    · refine .inr ⟨?_, (Except.ok.inj h).symm⟩
      cases hd : s.dma.state
      · rfl
      · exact absurd hd ha

theorem armed_error {s : State} {k : Fault} (h : armed s = .error k) : k = .lutUninit ∧ s.lut = none := by
  unfold armed at h
  split at h
  · next hn => exact ⟨(Except.error.inj h).symm, hn⟩
  · split_ifs at h

/-- A transfer writes one entry of the table and moves the index on. -/
theorem transferred_cases {s t : State} (h : transferred s = .ok t) :
    ∃ (T : Vector Nat tableLen) (i : Fin tableLen) (d : Nat), s.lut = some T ∧ (∀ j, s.dma.idx = some j → i = j ∧ d = s.draws) ∧
      t = { s with dac := ⟨s.dac.en, some T[i]⟩, dma := ⟨s.dma.state, some (i + 1)⟩, draws := d } := by
  unfold transferred at h
  split at h
  · simp at h
  · next T i hT hi =>
    exact ⟨T, i, s.draws, hT, fun j hj => ⟨Option.some.inj (hi.symm.trans hj), rfl⟩, (Except.ok.inj h).symm⟩
  · next T hT hi =>
    exact ⟨T, Config.armStart s.draws, s.draws + 1, hT, fun j hj => absurd (hi.symm.trans hj) (by simp),
      (Except.ok.inj h).symm⟩

theorem transferred_error {s : State} {k : Fault} (h : transferred s = .error k) : s.lut = none := by
  unfold transferred at h
  split at h
  · assumption
  · simp at h
  · simp at h

theorem overflowsNow_iff {s : State} {psc arr : Nat} (hp : s.tim.psc = some psc) (ha : s.tim.arr = some arr) :
    overflowsNow s = true ↔ psc ≤ s.tim.pcnt ∧ arr ≤ s.tim.cnt := by
  simp [overflowsNow, hp, ha]

/-- A tick that is no overflow moves one of the two counters. -/
theorem tick_counting {s : State} {psc arr : Nat} (hp : s.tim.psc = some psc) (ha : s.tim.arr = some arr)
    (h : overflowsNow s = false) :
    (s.tim.pcnt < psc ∧ tick s = { s with tim := { s.tim with pcnt := s.tim.pcnt + 1 } }) ∨
    (psc ≤ s.tim.pcnt ∧ s.tim.cnt < arr ∧ tick s = { s with tim := { s.tim with pcnt := 0, cnt := s.tim.cnt + 1 } }) := by
  have hn : ¬ (psc ≤ s.tim.pcnt ∧ arr ≤ s.tim.cnt) := by
    rw [← overflowsNow_iff hp ha, h]; simp
  by_cases h1 : s.tim.pcnt < psc
  · exact .inl ⟨h1, by simp [tick, hp, ha, h1]⟩
  · have h2 : s.tim.cnt < arr := by omega
    exact .inr ⟨by omega, h2, by simp [tick, hp, ha, h1, h2]⟩

/-- A tick that is an overflow clears both counters, with the transfer if the DMA is ARMED. -/
theorem tick_overflow {s : State} {psc arr : Nat} (hp : s.tim.psc = some psc) (ha : s.tim.arr = some arr)
    (h : overflowsNow s = true) :
    tick s = settle s (overflowed { s with tim := { s.tim with pcnt := 0, cnt := 0 } }) := by
  obtain ⟨h1, h2⟩ := (overflowsNow_iff hp ha).1 h
  simp [tick, hp, ha, Nat.not_lt.2 h1, Nat.not_lt.2 h2]

/-- What a tick can change: the two counters, the DAC data with the DMA index and the draw counter, or the fault record
alone. -/
theorem tick_cases (s : State) :
    (∃ (p c : Nat) (dac : Dac) (dma : Dma) (d : Nat), dac.en = s.dac.en ∧ dma.state = s.dma.state ∧
      tick s = { s with tim := { s.tim with pcnt := p, cnt := c }, dac := dac, dma := dma, draws := d }) ∨
    (∃ k, tick s = faulted k s) := by
  by_cases hcfg : (∃ psc, s.tim.psc = some psc) ∧ ∃ arr, s.tim.arr = some arr
  · obtain ⟨⟨psc, hp⟩, arr, ha⟩ := hcfg
    cases ho : overflowsNow s with
    | false =>
      rcases tick_counting hp ha ho with ⟨-, h⟩ | ⟨-, -, h⟩
      · exact .inl ⟨s.tim.pcnt + 1, s.tim.cnt, s.dac, s.dma, s.draws, rfl, rfl, h⟩
      · exact .inl ⟨0, s.tim.cnt + 1, s.dac, s.dma, s.draws, rfl, rfl, h⟩
    | true =>
      rw [tick_overflow hp ha ho]
      cases hov : overflowed { s with tim := { s.tim with pcnt := 0, cnt := 0 } } with
      | error k => exact .inr ⟨k, rfl⟩
      | ok t =>
        refine .inl ?_
        unfold overflowed at hov
        split_ifs at hov with harm
        · obtain ⟨T, i, d, -, -, rfl⟩ := transferred_cases hov
          exact ⟨0, 0, ⟨s.dac.en, some T[i]⟩, ⟨s.dma.state, some (i + 1)⟩, d, rfl, rfl, rfl⟩
        · obtain rfl := Except.ok.inj hov
          exact ⟨0, 0, s.dac, s.dma, s.draws, rfl, rfl, rfl⟩
  · refine .inr ⟨.timerUnconfigured, ?_⟩
    unfold tick
    split
    · next psc arr hp ha => exact absurd ⟨⟨psc, hp⟩, arr, ha⟩ hcfg
    · rfl

/-- An overflow while the DMA is IDLE clears the counters and is lost (41_audio R159). -/
theorem tick_overflow_idle {s : State} {psc arr : Nat} (hp : s.tim.psc = some psc) (ha : s.tim.arr = some arr)
    (h : overflowsNow s = true) (hd : s.dma.state ≠ .armed) :
    tick s = { s with tim := { s.tim with pcnt := 0, cnt := 0 } } := by
  rw [tick_overflow hp ha h]
  simp [overflowed, hd, settle]

/-- An overflow while the DMA is ARMED transfers one entry (41_audio R166). -/
theorem tick_overflow_armed {s : State} {psc arr : Nat} (hp : s.tim.psc = some psc) (ha : s.tim.arr = some arr)
    (h : overflowsNow s = true) (hd : s.dma.state = .armed) {T : Vector Nat tableLen} (hT : s.lut = some T)
    {i : Fin tableLen} (hi : s.dma.idx = some i) :
    tick s =
      { s with
        tim := { s.tim with pcnt := 0, cnt := 0 }
        dac := ⟨s.dac.en, some T[i]⟩
        dma := ⟨.armed, some (i + 1)⟩ } := by
  rw [tick_overflow hp ha h]
  simp [overflowed, hd, transferred, hT, hi, settle, lutRead]

end Sys2Proof.Machine
end

