-- ==== Sys2Proof/Laws/Decode.lean ====
section
/-! SUPPORT. The pin identifiers and their numbers; what the two decoders answer. -/

namespace Sys2Proof

@[simp] theorem pinNameOf_pinId (p : PinName) : pinNameOf (pinId p) = p := by
  cases p with
  | motorDirA s => cases s <;> rfl
  | motorDirB s => cases s <;> rfl
  | motorPwm s => cases s <;> rfl
  | dacOut => rfl
  | other n => rfl

theorem pinId_pinNameOf (n : Nat) : pinId (pinNameOf n) = n := by
  match n with
  | 0 | 1 | 2 | 3 | 4 | 5 | 6 => rfl
  | n + 7 => rfl

theorem decodePin_pinId {c : Config} {p : PinName} (h : p.isName c = true) : decodePin c (pinId p) = .ok p := by
  simp [decodePin, h]

theorem decodePin_ok {c : Config} {id : Nat} {p : PinName} (h : decodePin c id = .ok p) :
    p.isName c = true ∧ pinId p = id := by
  unfold decodePin at h
  split_ifs at h with hn
  obtain rfl := Except.ok.inj h
  exact ⟨hn, pinId_pinNameOf id⟩

theorem withPin_pinId {c : Config} {p : PinName} (h : p.isName c = true) (f : PinName → Instr) :
    withPin c (pinId p) f = .ok (f p) := by
  simp [withPin, decodePin_pinId h]

theorem withPin_of_decodePin {c : Config} {id : Nat} {p : PinName} (h : decodePin c id = .ok p) (f : PinName → Instr) :
    withPin c id f = .ok (f p) := by
  simp [withPin, h]

theorem withPin_ok {c : Config} {id : Nat} {f : PinName → Instr} {i : Instr} (h : withPin c id f = .ok i) :
    ∃ p : PinName, p.isName c = true ∧ pinId p = id ∧ f p = i := by
  unfold withPin at h
  split at h
  · next p hp => exact ⟨p, (decodePin_ok hp).1, (decodePin_ok hp).2, Except.ok.inj h⟩
  · simp at h

/-- A pin that PIN_MAP holds is a PinName. -/
theorem isName_of_lookup {c : Config} {p : PinName} {q : PhysPin} (h : c.pinMap.lookup p = some q) :
    p.isName c = true := by
  cases p with
  | other n =>
    have : n < c.pinMap.others.length := by
      by_contra hn
      simp [PinMap.lookup, List.getElem?_eq_none (Nat.not_lt.1 hn)] at h
    simpa [PinName.isName] using this
  | _ => rfl

theorem decodeWrite_ok {c : Config} {id b : Nat} {i : Instr} (h : decodeWrite c id b = .ok i) :
    ∃ (p : PinName) (l : Bool), p.isName c = true ∧ pinId p = id ∧ b = l.toNat ∧ i = .gpioWrite p l := by
  unfold decodeWrite at h
  split at h
  · simp at h
  · next p hp =>
    obtain ⟨hn, hid⟩ := decodePin_ok hp
    split at h
    · next hb => exact ⟨p, false, hn, hid, hb, (Except.ok.inj h).symm⟩
    · split at h
      · next hb => exact ⟨p, true, hn, hid, hb, (Except.ok.inj h).symm⟩
      · simp at h

/-- What a record can decode to: the fourteen rows of 30_encoding R79. -/
inductive CtrlDecodes (c : Config) (r : CtrlRecord) : Instr → Prop where
  | gpioMode (p : PinName) (hs : r.sel = 0x01) (hn : p.isName c = true) (hp : pinId p = r.pin) :
    CtrlDecodes c r (.gpioMode p r.a)
  | gpioPull (p : PinName) (hs : r.sel = 0x02) (hn : p.isName c = true) (hp : pinId p = r.pin) :
    CtrlDecodes c r (.gpioPull p r.a)
  | gpioOtype (p : PinName) (hs : r.sel = 0x03) (hn : p.isName c = true) (hp : pinId p = r.pin) :
    CtrlDecodes c r (.gpioOtype p r.a)
  | gpioSpeed (p : PinName) (hs : r.sel = 0x04) (hn : p.isName c = true) (hp : pinId p = r.pin) :
    CtrlDecodes c r (.gpioSpeed p r.a)
  | gpioAf (p : PinName) (hs : r.sel = 0x05) (hn : p.isName c = true) (hp : pinId p = r.pin) :
    CtrlDecodes c r (.gpioAf p r.a)
  | gpioWrite (p : PinName) (l : Bool) (hs : r.sel = 0x06) (hn : p.isName c = true) (hp : pinId p = r.pin)
    (hb : r.b = l.toNat) : CtrlDecodes c r (.gpioWrite p l)
  | gpioRead (p : PinName) (hs : r.sel = 0x07) (hn : p.isName c = true) (hp : pinId p = r.pin) :
    CtrlDecodes c r (.gpioRead p)
  | lutInit (hs : r.sel = 0x10) : CtrlDecodes c r .lutInit
  | dacEnable (hs : r.sel = 0x11) : CtrlDecodes c r .dacEnable
  | timClockSet (hs : r.sel = 0x12) : CtrlDecodes c r (.timClockSet r.a r.b)
  | timStart (hs : r.sel = 0x13) : CtrlDecodes c r .timStart
  | dmaArm (hs : r.sel = 0x14) : CtrlDecodes c r .dmaArm
  | dmaDisarm (hs : r.sel = 0x15) : CtrlDecodes c r .dmaDisarm
  | bootDone (hs : r.sel = 0x20) : CtrlDecodes c r .bootDone

theorem decodeCtrl_ok {c : Config} {r : CtrlRecord} {i : Instr} (h : decodeCtrl c r = .ok i) : CtrlDecodes c r i := by
  unfold decodeCtrl at h
  by_cases hs : r.sel = 0x01
  · rw [if_pos hs] at h; obtain ⟨p, hn, hp, rfl⟩ := withPin_ok h; exact .gpioMode p hs hn hp
  rw [if_neg hs] at h; clear hs; by_cases hs : r.sel = 0x02
  · rw [if_pos hs] at h; obtain ⟨p, hn, hp, rfl⟩ := withPin_ok h; exact .gpioPull p hs hn hp
  rw [if_neg hs] at h; clear hs; by_cases hs : r.sel = 0x03
  · rw [if_pos hs] at h; obtain ⟨p, hn, hp, rfl⟩ := withPin_ok h; exact .gpioOtype p hs hn hp
  rw [if_neg hs] at h; clear hs; by_cases hs : r.sel = 0x04
  · rw [if_pos hs] at h; obtain ⟨p, hn, hp, rfl⟩ := withPin_ok h; exact .gpioSpeed p hs hn hp
  rw [if_neg hs] at h; clear hs; by_cases hs : r.sel = 0x05
  · rw [if_pos hs] at h; obtain ⟨p, hn, hp, rfl⟩ := withPin_ok h; exact .gpioAf p hs hn hp
  rw [if_neg hs] at h; clear hs; by_cases hs : r.sel = 0x06
  · rw [if_pos hs] at h; obtain ⟨p, l, hn, hp, hb, rfl⟩ := decodeWrite_ok h; exact .gpioWrite p l hs hn hp hb
  rw [if_neg hs] at h; clear hs; by_cases hs : r.sel = 0x07
  · rw [if_pos hs] at h; obtain ⟨p, hn, hp, rfl⟩ := withPin_ok h; exact .gpioRead p hs hn hp
  rw [if_neg hs] at h; clear hs; by_cases hs : r.sel = 0x10
  · rw [if_pos hs] at h; obtain rfl := Except.ok.inj h; exact .lutInit hs
  rw [if_neg hs] at h; clear hs; by_cases hs : r.sel = 0x11
  · rw [if_pos hs] at h; obtain rfl := Except.ok.inj h; exact .dacEnable hs
  rw [if_neg hs] at h; clear hs; by_cases hs : r.sel = 0x12
  · rw [if_pos hs] at h; obtain rfl := Except.ok.inj h; exact .timClockSet hs
  rw [if_neg hs] at h; clear hs; by_cases hs : r.sel = 0x13
  · rw [if_pos hs] at h; obtain rfl := Except.ok.inj h; exact .timStart hs
  rw [if_neg hs] at h; clear hs; by_cases hs : r.sel = 0x14
  · rw [if_pos hs] at h; obtain rfl := Except.ok.inj h; exact .dmaArm hs
  rw [if_neg hs] at h; clear hs; by_cases hs : r.sel = 0x15
  · rw [if_pos hs] at h; obtain rfl := Except.ok.inj h; exact .dmaDisarm hs
  rw [if_neg hs] at h; clear hs; by_cases hs : r.sel = 0x20
  · rw [if_pos hs] at h; obtain rfl := Except.ok.inj h; exact .bootDone hs
  · rw [if_neg hs] at h; simp at h

/-- What a delivered unit decodes to: one of the eight token operations, or its own UNRECOGNIZED unit (30_encoding R71). -/
theorem decodeUnit_cases (u : List Byte) :
    decodeUnit u ∈ [.drive, .accelerate, .brake, .stop, .turnLeft, .turnRight, .reverse, .honk] ∨
      decodeUnit u = .unrecognized u := by
  rcases u with _ | ⟨op, _ | _⟩
  · exact .inr rfl
  · simp only [decodeUnit, tokenOf]
    split
    · next i hi => split_ifs at hi <;> simp [← Option.some.inj hi]
    · exact .inr rfl
  · exact .inr rfl

end Sys2Proof
end

