-- ==== Sys2Proof/Laws/Latch.lean ====
section
/-! SUPPORT. Latch writes on the list of pins: a latch that holds a level at its place is not changed by writing the
level again, and other latch writes leave it there. -/

namespace Sys2Proof.Machine

/-- A latch write on the list of pins. -/
def latch (q : PhysPin) (l : Bool) (g : List (PhysPin × PinFields)) : List (PhysPin × PinFields) :=
  storePin q ((lookupPin g q).setOut l) g

/-- The pin is listed where a write of it would put it. -/
def AtItsPlace (p : PhysPin) : List (PhysPin × PinFields) → Prop
  | [] => False
  | (q, _) :: rest => p = q ∨ (pinLt p q = false ∧ AtItsPlace p rest)

theorem atItsPlace_storePin_same {p : PhysPin} {f : PinFields} (hf : f ≠ PinFields.fresh) :
    ∀ {l : List (PhysPin × PinFields)}, AtItsPlace p (storePin p f l)
  | [] => by simp [storePin, hf, AtItsPlace]
  | (q, g) :: rest => by
    by_cases hpq : p = q
    · simp [storePin, hpq, hf, AtItsPlace]
    · by_cases hlt : pinLt p q = true
      · simp [storePin, hpq, hlt, hf, AtItsPlace]
      · simp [storePin, hpq, hlt, AtItsPlace, atItsPlace_storePin_same hf (l := rest)]

theorem atItsPlace_storePin_other {p r : PhysPin} {f : PinFields} (hf : f ≠ PinFields.fresh) :
    ∀ {l : List (PhysPin × PinFields)}, AtItsPlace p l → AtItsPlace p (storePin r f l)
  | [], h => h.elim
  | (q, g) :: rest, h => by
    by_cases hrq : r = q
    · subst hrq
      simpa [storePin, hf, AtItsPlace] using h
    · by_cases hlt : pinLt r q = true
      · have key : p = r ∨ pinLt p r = false := by
          by_contra hc
          rw [not_or, Bool.not_eq_false] at hc
          rcases h with rfl | ⟨h1, -⟩
          · simpa [pinLt_irrefl] using pinLt_trans hlt hc.2
          · simp [pinLt_trans hc.2 hlt] at h1
        simp only [storePin, hrq, if_false, hlt, if_true, hf]
        exact key.imp_right fun hk => ⟨hk, h⟩
      · simp only [storePin, hrq, if_false, hlt]
        exact h.imp_right fun ⟨h1, h2⟩ => ⟨h1, atItsPlace_storePin_other hf h2⟩

/-- Writing the fields a pin holds changes nothing. -/
theorem storePin_lookupPin {p : PhysPin} : ∀ {l : List (PhysPin × PinFields)}, AtItsPlace p l →
    lookupPin l p ≠ PinFields.fresh → storePin p (lookupPin l p) l = l
  | [], h, _ => h.elim
  | (q, g) :: rest, h, hf => by
    by_cases hpq : p = q
    · subst hpq
      simp only [lookupPin, if_true] at hf
      simp [storePin, lookupPin, hf]
    · obtain ⟨h1, h2⟩ := h.resolve_left hpq
      simp only [lookupPin, hpq, if_false] at hf ⊢
      simp [storePin, hpq, h1, storePin_lookupPin h2 hf]

/-- The latch of a pin holds a level, and the pin is at its place. -/
structure Latched (q : PhysPin) (l : Bool) (g : List (PhysPin × PinFields)) : Prop where
  place : AtItsPlace q g
  level : (lookupPin g q).out = some l

theorem setOut_ne_fresh (l : Bool) (f : PinFields) : f.setOut l ≠ PinFields.fresh := by
  simp [PinFields.setOut, PinFields.fresh]

theorem latched_latch (q : PhysPin) (l : Bool) (g : List (PhysPin × PinFields)) : Latched q l (latch q l g) :=
  ⟨atItsPlace_storePin_same (setOut_ne_fresh _ _), by
    rw [latch, lookupPin_storePin_same (.inr (setOut_ne_fresh _ _))]; rfl⟩

/-- A write of the same level to any pin keeps a latch. -/
theorem Latched.latch {q : PhysPin} {l : Bool} {g : List (PhysPin × PinFields)} (h : Latched q l g) (r : PhysPin) :
    Latched q l (Machine.latch r l g) := by
  refine ⟨atItsPlace_storePin_other (setOut_ne_fresh _ _) h.place, ?_⟩
  by_cases hqr : q = r
  · subst hqr; exact (latched_latch q l g).level
  · rw [Machine.latch, lookupPin_storePin_other hqr]; exact h.level

/-- Writing the level a latch holds changes nothing. -/
theorem Latched.latch_eq {q : PhysPin} {l : Bool} {g : List (PhysPin × PinFields)} (h : Latched q l g) :
    Machine.latch q l g = g := by
  have hs : (lookupPin g q).setOut l = lookupPin g q := by
    have := h.level
    cases hp : lookupPin g q
    simp only [hp] at this
    simp [PinFields.setOut, this]
  rw [Machine.latch, hs]
  exact storePin_lookupPin h.place (by rw [← hs]; exact setOut_ne_fresh _ _)

/-- The pins after both sides are reflected. -/
def reflectedPins (m : PinMap) (c : Car) (g : List (PhysPin × PinFields)) : List (PhysPin × PinFields) :=
  latch m.rightDirB (dirCode c.right.dir).2 <| latch m.rightDirA (dirCode c.right.dir).1 <|
    latch m.leftDirB (dirCode c.left.dir).2 <| latch m.leftDirA (dirCode c.left.dir).1 g

theorem reflectedState_eq (s : State) : reflectedState s =
    { s with
      pwm := ⟨some s.car.left.duty, some s.car.right.duty⟩
      gpio := reflectedPins s.cfg.pinMap s.car s.gpio } := rfl

/-- A motor step with the clocks on, written out. -/
theorem msmStep_eq {sem : Car → Car × Status} {s : State} (h : DirClocksOn s) : msmStep sem s =
    { s with
      car := (sem s.car).1
      pwm := ⟨some (sem s.car).1.left.duty, some (sem s.car).1.right.duty⟩
      gpio := reflectedPins s.cfg.pinMap (sem s.car).1 s.gpio
      reply := some ⟨(sem s.car).2, none⟩ } := by
  have hr : reflect { s with car := (sem s.car).1 } = .ok (reflectedState { s with car := (sem s.car).1 }) :=
    reflect_on h
  simp only [msmStep, hr, settle]
  rfl

/-- Reflecting a stopped car twice is reflecting it once. -/
theorem reflectedPins_halted_twice (m : PinMap) (g : List (PhysPin × PinFields)) :
    reflectedPins m ⟨Motor.halted, Motor.halted⟩ (reflectedPins m ⟨Motor.halted, Motor.halted⟩ g) =
      reflectedPins m ⟨Motor.halted, Motor.halted⟩ g := by
  simp only [reflectedPins, Motor.halted, dirCode]
  have h4 := latched_latch m.rightDirB false
    (latch m.rightDirA false (latch m.leftDirB false (latch m.leftDirA false g)))
  have h3 := (latched_latch m.rightDirA false (latch m.leftDirB false (latch m.leftDirA false g))).latch m.rightDirB
  have h2 := ((latched_latch m.leftDirB false (latch m.leftDirA false g)).latch m.rightDirA).latch m.rightDirB
  have h1 := (((latched_latch m.leftDirA false g).latch m.leftDirB).latch m.rightDirA).latch m.rightDirB
  rw [h1.latch_eq, h2.latch_eq, h3.latch_eq, h4.latch_eq]

end Sys2Proof.Machine
end

