-- ==== Sys2Proof/Laws/Motor.lean ====
section
/-! SUPPORT. The seven motor operations as one: each is a motor step of its own semantics on CarState. -/

namespace Sys2Proof.Machine

/-- The seven motor operations. -/
abbrev motorOps : List Instr := [.drive, .accelerate, .brake, .stop, .turnLeft, .turnRight, .reverse]

/-- What a motor operation computes of CarState, and its status. -/
inductive MotorSemantics : Instr → (Car → Car × Status) → Prop where
  | drive : MotorSemantics .drive (Car.startFrom .forward)
  | accelerate : MotorSemantics .accelerate (fun c => ((c.bump stepDuty .left).bump stepDuty .right, .ok))
  | brake : MotorSemantics .brake (fun c => ((c.bump (-stepDuty) .left).bump (-stepDuty) .right, .ok))
  | stop : MotorSemantics .stop (fun _ => (⟨Motor.halted, Motor.halted⟩, .ok))
  | turnLeft : MotorSemantics .turnLeft (fun c => (c.bump (-stepDuty) .left, .ok))
  | turnRight : MotorSemantics .turnRight (fun c => (c.bump (-stepDuty) .right, .ok))
  | reverse : MotorSemantics .reverse (Car.startFrom .backward)

theorem exec_motor {i : Instr} (h : i ∈ motorOps) :
    ∃ sem, MotorSemantics i sem ∧ ∀ s, exec i s = .next (msmStep sem s) := by
  simp only [motorOps, List.mem_cons, List.not_mem_nil, or_false] at h
  rcases h with rfl | rfl | rfl | rfl | rfl | rfl | rfl
  · exact ⟨_, .drive, fun _ => rfl⟩
  · exact ⟨_, .accelerate, fun _ => rfl⟩
  · exact ⟨_, .brake, fun _ => rfl⟩
  · exact ⟨_, .stop, fun _ => rfl⟩
  · exact ⟨_, .turnLeft, fun _ => rfl⟩
  · exact ⟨_, .turnRight, fun _ => rfl⟩
  · exact ⟨_, .reverse, fun _ => rfl⟩

/-- A motor operation either changes the motor path alone, or records the fault of a clock that is off. -/
theorem msmStep_cases (sem : Car → Car × Status) (s : State) :
    (DirClocksOn s ∧ MotorOutcome (sem s.car).1 (sem s.car).2 s (msmStep sem s)) ∨
      (¬ DirClocksOn s ∧ msmStep sem s = faulted .gpioClockOff s) := by
  by_cases h : DirClocksOn s
  · exact .inl ⟨h, msmStep_on h⟩
  · exact .inr ⟨h, msmStep_off h⟩

/-- A motor at rest or given BASE_DUTY in a direction meets the invariant of 10_state R22. -/
theorem motorOk_halted : MotorOk Motor.halted := by simp [MotorOk, Motor.halted]

theorem motorOk_base {dir : Dir} (h : dir ≠ .stopped) : MotorOk ⟨BitVec.ofNat 10 baseDuty, dir⟩ := by
  simp [MotorOk, baseDuty, minDuty, maxDuty, h]

/-- BOOT_DONE with the clocks on, written out (40_motor R120). -/
theorem execBootDone_on {s : State} (hp : s.phase = .boot) (h : DirClocksOn s) :
    execBootDone s = .next
      { s with
        phase := .idle
        pwm := ⟨some s.car.left.duty, some s.car.right.duty⟩
        gpio := reflectedPins s.cfg.pinMap s.car s.gpio
        reply := some ⟨.ok, none⟩ } := by
  have hr : reflect s = .ok (reflectedState s) := reflect_on h
  simp only [execBootDone, hp, hr, settle, if_true]
  rfl

theorem execBootDone_off {s : State} (hp : s.phase = .boot) (h : ¬ DirClocksOn s) :
    execBootDone s = .next (faulted .gpioClockOff s) := by
  simp only [execBootDone, hp, reflect_off h, settle, if_true]
  rfl

end Sys2Proof.Machine
end

