-- ==== Sys2Proof/Laws/Frame.lean ====
section
/-! SUPPORT. What no operation changes or takes back, once for all operations. -/

namespace Sys2Proof.Machine

/-- What holds across every operation: the parameters, the environment's data and the DAC data stay; the table, the
enables, the clocks and the trace are not taken back (10_state R30, R31, R34, R37, R39, R40; 20_memory R61). -/
structure ExecKeeps (s t : State) : Prop where
  cfg : t.cfg = s.cfg
  hostUnits : t.hostUnits = s.hostUnits
  ctrlOps : t.ctrlOps = s.ctrlOps
  sched : t.sched = s.sched
  dacData : t.dac.data = s.dac.data
  lut : ∀ T, s.lut = some T → t.lut = some T
  timEn : s.tim.en = true → t.tim.en = true
  dacEn : s.dac.en = true → t.dac.en = true
  clock : ∀ p, s.clockOn p = true → t.clockOn p = true
  diag : ∃ ds, t.diag = s.diag ++ ds

theorem execKeeps_refl (s : State) : ExecKeeps s s :=
  ⟨rfl, rfl, rfl, rfl, rfl, fun _ h => h, fun h => h, fun h => h, fun _ h => h, [], by simp⟩

theorem execKeeps_trans {s t u : State} (h : ExecKeeps s t) (h' : ExecKeeps t u) : ExecKeeps s u := by
  obtain ⟨d, hd⟩ := h.diag
  obtain ⟨e, he⟩ := h'.diag
  exact ⟨h'.cfg.trans h.cfg, h'.hostUnits.trans h.hostUnits, h'.ctrlOps.trans h.ctrlOps, h'.sched.trans h.sched,
    h'.dacData.trans h.dacData, fun T hT => h'.lut T (h.lut T hT), fun x => h'.timEn (h.timEn x),
    fun x => h'.dacEn (h.dacEn x), fun p x => h'.clock p (h.clock p x), d ++ e, by rw [he, hd, List.append_assoc]⟩

/-- A change of the motor path, the pins, the phase, the DMA, the stops and the model's own records alone. -/
theorem execKeeps_of_eq {s t : State} (h : t = { s with
    car := t.car, pwm := t.pwm, phase := t.phase, dma := t.dma, gpio := t.gpio, fault := t.fault, refusal := t.refusal,
    draws := t.draws, reply := t.reply }) : ExecKeeps s t := by
  rw [h]
  exact ⟨rfl, rfl, rfl, rfl, rfl, fun _ h => h, fun h => h, fun h => h, fun _ h => h, [], by simp⟩

theorem msmStep_keeps (sem : Car → Car × Status) (s : State) : ExecKeeps s (msmStep sem s) := by
  rcases msmStep_cases sem s with ⟨hc, -⟩ | ⟨-, h⟩
  · rw [msmStep_eq hc]; exact execKeeps_of_eq rfl
  · rw [h]; exact execKeeps_of_eq rfl

/-- What a step that may fault keeps, given what its success keeps. -/
theorem settle_keeps {s : State} {r : Except Fault State} (h : ∀ t, r = .ok t → ExecKeeps s t) :
    ExecKeeps s (settle s r) := by
  cases r with
  | ok t => exact h t rfl
  | error k => exact execKeeps_of_eq rfl

theorem onPin_keeps {pin : PinName} {s : State} {act : PhysPin → Except Fault State}
    (h : ∀ q t, act q = .ok t → ExecKeeps s t) : ExecKeeps s (onPin pin s act) := by
  unfold onPin
  split
  · exact execKeeps_of_eq rfl
  · next q _ => exact settle_keeps (h q)

theorem gpioConfig_keeps {pin : PinName} {valid : Bool} {s : State} {write : PhysPin → Except Fault State}
    (h : ∀ q t, write q = .ok t → ExecKeeps s t) : ExecKeeps s (gpioConfig pin valid s write) := by
  refine onPin_keeps fun q t ht => ?_
  cases valid with
  | true => exact h q t ht
  | false =>
    obtain rfl := Except.ok.inj ht
    exact ⟨rfl, rfl, rfl, rfl, rfl, fun _ h => h, fun h => h, fun h => h, fun _ h => h, _, rfl⟩

theorem writeEnabling_keeps (q : PhysPin) (f : PinFields → PinFields) {s t : State} (h : writeEnabling q f s = .ok t) :
    ExecKeeps s t := by
  obtain rfl := Except.ok.inj h
  refine ⟨rfl, rfl, rfl, rfl, rfl, fun _ h => h, fun h => h, fun h => h, fun p hp => ?_, [], by simp [updatePin, enableClock]⟩
  change (enableClock q.port s).clockOn p = true
  rw [clockOn_enableClock, hp, Bool.true_or]

theorem writeClocked_keeps (q : PhysPin) (f : PinFields → PinFields) {s t : State} (h : writeClocked q f s = .ok t) :
    ExecKeeps s t := by
  unfold writeClocked at h
  split_ifs at h
  obtain rfl := Except.ok.inj h
  exact execKeeps_of_eq rfl

theorem armed_keeps {s t : State} (h : armed s = .ok t) : ExecKeeps s t := by
  rcases (armed_cases h).2 with ⟨-, rfl⟩ | ⟨-, rfl⟩
  · exact execKeeps_refl _
  · exact execKeeps_of_eq rfl

/-- Every operation keeps what `ExecKeeps` names. -/
theorem exec_keeps {i : Instr} {s t : State} (h : exec i s = .next t) : ExecKeeps s t := by
  cases i with
  | drive => obtain rfl := Host.Outcome.next.inj h; exact msmStep_keeps _ s
  | accelerate => obtain rfl := Host.Outcome.next.inj h; exact msmStep_keeps _ s
  | brake => obtain rfl := Host.Outcome.next.inj h; exact msmStep_keeps _ s
  | stop => obtain rfl := Host.Outcome.next.inj h; exact msmStep_keeps _ s
  | turnLeft => obtain rfl := Host.Outcome.next.inj h; exact msmStep_keeps _ s
  | turnRight => obtain rfl := Host.Outcome.next.inj h; exact msmStep_keeps _ s
  | reverse => obtain rfl := Host.Outcome.next.inj h; exact msmStep_keeps _ s
  | honk =>
    obtain rfl := Host.Outcome.next.inj h
    refine settle_keeps fun t ht => ?_
    split at ht
    · simp at ht
    · next u hu =>
      obtain rfl := Except.ok.inj ht
      exact execKeeps_trans (armed_keeps hu) (execKeeps_of_eq rfl)
  | unrecognized u =>
    obtain rfl := Host.Outcome.next.inj h
    exact ⟨rfl, rfl, rfl, rfl, rfl, fun _ h => h, fun h => h, fun h => h, fun _ h => h, _, rfl⟩
  | gpioMode p v =>
    obtain rfl := Host.Outcome.next.inj h; exact gpioConfig_keeps fun q _ ht => writeEnabling_keeps q _ ht
  | gpioPull p v =>
    obtain rfl := Host.Outcome.next.inj h; exact gpioConfig_keeps fun q _ ht => writeClocked_keeps q _ ht
  | gpioOtype p v =>
    obtain rfl := Host.Outcome.next.inj h; exact gpioConfig_keeps fun q _ ht => writeClocked_keeps q _ ht
  | gpioSpeed p v =>
    obtain rfl := Host.Outcome.next.inj h; exact gpioConfig_keeps fun q _ ht => writeClocked_keeps q _ ht
  | gpioAf p v =>
    obtain rfl := Host.Outcome.next.inj h; exact gpioConfig_keeps fun q _ ht => writeEnabling_keeps q _ ht
  | gpioWrite p l =>
    obtain rfl := Host.Outcome.next.inj h
    refine onPin_keeps fun q t ht => ?_
    split at ht
    · simp at ht
    · next u hu =>
      obtain rfl := Except.ok.inj ht
      obtain ⟨-, rfl⟩ := writeLatch_ok hu
      exact execKeeps_of_eq rfl
  | gpioRead p =>
    obtain rfl := Host.Outcome.next.inj h
    refine onPin_keeps fun q t ht => ?_
    split at ht
    · obtain rfl := Except.ok.inj ht
      exact execKeeps_of_eq rfl
    · simp at ht
  | lutInit =>
    obtain rfl := Host.Outcome.next.inj h
    split
    · next hn =>
      exact ⟨rfl, rfl, rfl, rfl, rfl, fun T hT => by simp [hn] at hT, fun h => h, fun h => h, fun _ h => h, [], by simp⟩
    · exact execKeeps_of_eq rfl
  | dacEnable =>
    obtain rfl := Host.Outcome.next.inj h
    exact ⟨rfl, rfl, rfl, rfl, rfl, fun _ h => h, fun h => h, fun _ => rfl, fun _ h => h, [], by simp⟩
  | timClockSet p r =>
    obtain rfl := Host.Outcome.next.inj h
    split
    · exact ⟨rfl, rfl, rfl, rfl, rfl, fun _ h => h, fun h => h, fun h => h, fun _ h => h, [], by simp⟩
    · exact execKeeps_of_eq rfl
  | timStart =>
    obtain rfl := Host.Outcome.next.inj h
    split
    · exact execKeeps_of_eq rfl
    · exact ⟨rfl, rfl, rfl, rfl, rfl, fun _ h => h, fun _ => rfl, fun h => h, fun _ h => h, [], by simp⟩
  | dmaArm =>
    obtain rfl := Host.Outcome.next.inj h
    refine settle_keeps fun t ht => ?_
    split at ht
    · simp at ht
    · next u hu =>
      obtain rfl := Except.ok.inj ht
      exact execKeeps_trans (armed_keeps hu) (execKeeps_of_eq rfl)
  | dmaDisarm => obtain rfl := Host.Outcome.next.inj h; exact execKeeps_of_eq rfl
  | bootDone =>
    by_cases hp : s.phase = .boot
    · by_cases hc : DirClocksOn s
      · obtain rfl := Host.Outcome.next.inj ((execBootDone_on hp hc).symm.trans h)
        exact execKeeps_of_eq rfl
      · obtain rfl := Host.Outcome.next.inj ((execBootDone_off hp hc).symm.trans h)
        exact execKeeps_of_eq rfl
    · obtain rfl := Host.Outcome.next.inj h
      rw [if_neg hp]
      exact execKeeps_of_eq rfl

/-! ## The phase -/

theorem settle_phase {s : State} {r : Except Fault State} (h : ∀ t, r = .ok t → t.phase = s.phase) :
    (settle s r).phase = s.phase := by
  cases r with
  | ok t => exact h t rfl
  | error k => rfl

theorem onPin_phase {pin : PinName} {s : State} {act : PhysPin → Except Fault State}
    (h : ∀ q t, act q = .ok t → t.phase = s.phase) : (onPin pin s act).phase = s.phase := by
  unfold onPin
  split
  · rfl
  · next q _ => exact settle_phase (h q)

theorem gpioConfig_phase {pin : PinName} {valid : Bool} {s : State} {write : PhysPin → Except Fault State}
    (h : ∀ q t, write q = .ok t → t.phase = s.phase) : (gpioConfig pin valid s write).phase = s.phase := by
  refine onPin_phase fun q t ht => ?_
  cases valid with
  | true => exact h q t ht
  | false => exact (Except.ok.inj ht) ▸ rfl

theorem writeEnabling_phase {q : PhysPin} {f : PinFields → PinFields} {s t : State} (h : writeEnabling q f s = .ok t) :
    t.phase = s.phase := (Except.ok.inj h) ▸ rfl

theorem writeClocked_phase {q : PhysPin} {f : PinFields → PinFields} {s t : State} (h : writeClocked q f s = .ok t) :
    t.phase = s.phase := by
  unfold writeClocked at h
  split_ifs at h
  exact (Except.ok.inj h) ▸ rfl

theorem msmStep_phase (sem : Car → Car × Status) (s : State) : (msmStep sem s).phase = s.phase := by
  rcases msmStep_cases sem s with ⟨hc, -⟩ | ⟨-, h⟩
  · rw [msmStep_eq hc]
  · rw [h]; rfl

/-- Of all operations only HONK and BOOT_DONE move the phase (10_state R26). -/
theorem exec_phase {i : Instr} {s t : State} (h : exec i s = .next t) (hh : i ≠ .honk) (hb : i ≠ .bootDone) :
    t.phase = s.phase := by
  cases i with
  | honk => exact absurd rfl hh
  | bootDone => exact absurd rfl hb
  | drive | accelerate | brake | stop | turnLeft | turnRight | reverse =>
    obtain rfl := Host.Outcome.next.inj h; exact msmStep_phase _ s
  | gpioMode | gpioAf =>
    obtain rfl := Host.Outcome.next.inj h; exact gpioConfig_phase fun _ _ => writeEnabling_phase
  | gpioPull | gpioOtype | gpioSpeed =>
    obtain rfl := Host.Outcome.next.inj h; exact gpioConfig_phase fun _ _ => writeClocked_phase
  | gpioWrite p l =>
    obtain rfl := Host.Outcome.next.inj h
    refine onPin_phase fun q t ht => ?_
    split at ht
    · simp at ht
    · next u hu =>
      obtain ⟨-, rfl⟩ := writeLatch_ok hu
      exact (Except.ok.inj ht) ▸ rfl
  | gpioRead p =>
    obtain rfl := Host.Outcome.next.inj h
    refine onPin_phase fun q t ht => ?_
    split_ifs at ht
    exact (Except.ok.inj ht) ▸ rfl
  | dmaArm =>
    obtain rfl := Host.Outcome.next.inj h
    refine settle_phase fun t ht => ?_
    split at ht
    · simp at ht
    · next u hu =>
      obtain rfl := Except.ok.inj ht
      rcases (armed_cases hu).2 with ⟨-, rfl⟩ | ⟨-, rfl⟩ <;> rfl
  | lutInit => obtain rfl := Host.Outcome.next.inj h; split <;> rfl
  | timClockSet | timStart => obtain rfl := Host.Outcome.next.inj h; split_ifs <;> rfl
  | unrecognized | dacEnable | dmaDisarm => obtain rfl := Host.Outcome.next.inj h; rfl
end Sys2Proof.Machine
end

