-- ==== Sys2Proof/Laws/PerInstr.lean ====
section
/-! SUPPORT. Statements made once per instruction. Family EncodeHead: the byte the encoding of an instruction starts with
is the one spec/opcode_table.json gives its row, and the first nine rows are units, the others records (30_encoding R70,
R73, R79). -/

namespace Sys2Proof.Laws.EncodeHead

/-- A unit of one given byte. -/
def IsUnitOf (op : Byte) (w : Work) : Prop := w = .unit [op]

/-- A CTRL record with a given selector. -/
def IsRecordOf (sel : Byte) (w : Work) : Prop := ∃ pin a b, w = .ctrl ⟨sel, pin, a, b⟩

/-- The head of an instruction's encoding, as the opcode table gives it. -/
def Statement : Instr → Prop
  | .drive => IsUnitOf 0x57 (encode .drive)
  | .accelerate => IsUnitOf 0x45 (encode .accelerate)
  | .brake => IsUnitOf 0x53 (encode .brake)
  | .stop => IsUnitOf 0x46 (encode .stop)
  | .turnLeft => IsUnitOf 0x41 (encode .turnLeft)
  | .turnRight => IsUnitOf 0x44 (encode .turnRight)
  | .reverse => IsUnitOf 0x52 (encode .reverse)
  | .honk => IsUnitOf 0x48 (encode .honk)
  | .unrecognized u => encode (.unrecognized u) = .unit u
  | .gpioMode p v => IsRecordOf 0x01 (encode (.gpioMode p v))
  | .gpioPull p v => IsRecordOf 0x02 (encode (.gpioPull p v))
  | .gpioOtype p v => IsRecordOf 0x03 (encode (.gpioOtype p v))
  | .gpioSpeed p v => IsRecordOf 0x04 (encode (.gpioSpeed p v))
  | .gpioAf p v => IsRecordOf 0x05 (encode (.gpioAf p v))
  | .gpioWrite p l => IsRecordOf 0x06 (encode (.gpioWrite p l))
  | .gpioRead p => IsRecordOf 0x07 (encode (.gpioRead p))
  | .lutInit => IsRecordOf 0x10 (encode .lutInit)
  | .dacEnable => IsRecordOf 0x11 (encode .dacEnable)
  | .timClockSet p r => IsRecordOf 0x12 (encode (.timClockSet p r))
  | .timStart => IsRecordOf 0x13 (encode .timStart)
  | .dmaArm => IsRecordOf 0x14 (encode .dmaArm)
  | .dmaDisarm => IsRecordOf 0x15 (encode .dmaDisarm)
  | .bootDone => IsRecordOf 0x20 (encode .bootDone)

theorem drive : Statement .drive := rfl
theorem accelerate : Statement .accelerate := rfl
theorem brake : Statement .brake := rfl
theorem stop : Statement .stop := rfl
theorem turnLeft : Statement .turnLeft := rfl
theorem turnRight : Statement .turnRight := rfl
theorem reverse : Statement .reverse := rfl
theorem honk : Statement .honk := rfl
theorem unrecognized (u : List Byte) : Statement (.unrecognized u) := rfl
theorem gpioMode (p : PinName) (v : Nat) : Statement (.gpioMode p v) := ⟨_, _, _, rfl⟩
theorem gpioPull (p : PinName) (v : Nat) : Statement (.gpioPull p v) := ⟨_, _, _, rfl⟩
theorem gpioOtype (p : PinName) (v : Nat) : Statement (.gpioOtype p v) := ⟨_, _, _, rfl⟩
theorem gpioSpeed (p : PinName) (v : Nat) : Statement (.gpioSpeed p v) := ⟨_, _, _, rfl⟩
theorem gpioAf (p : PinName) (v : Nat) : Statement (.gpioAf p v) := ⟨_, _, _, rfl⟩
theorem gpioWrite (p : PinName) (l : Bool) : Statement (.gpioWrite p l) := ⟨_, _, _, rfl⟩
theorem gpioRead (p : PinName) : Statement (.gpioRead p) := ⟨_, _, _, rfl⟩
theorem lutInit : Statement .lutInit := ⟨_, _, _, rfl⟩
theorem dacEnable : Statement .dacEnable := ⟨_, _, _, rfl⟩
theorem timClockSet (p r : Nat) : Statement (.timClockSet p r) := ⟨_, _, _, rfl⟩
theorem timStart : Statement .timStart := ⟨_, _, _, rfl⟩
theorem dmaArm : Statement .dmaArm := ⟨_, _, _, rfl⟩
theorem dmaDisarm : Statement .dmaDisarm := ⟨_, _, _, rfl⟩
theorem bootDone : Statement .bootDone := ⟨_, _, _, rfl⟩

end Sys2Proof.Laws.EncodeHead
end

