-- ==== Sys2Proof/Laws/Step.lean ====
section
/-! SUPPORT. What one step of the machine can be: the inversion of `step`. -/

namespace Sys2Proof.Machine

/-- A step that answers a next state has no fault or refusal recorded, and either nothing is scheduled or one move of the
schedule runs. -/
theorem step_cases {s t : State} (h : step s = .next t) :
    s.fault = none ∧ s.refusal = none ∧
      ((s.sched = [] ∧ t = s) ∨ ∃ m ms, s.sched = m :: ms ∧ runMove m { s with sched := ms } = .next t) := by
  unfold step advance at h
  split at h
  · simp at h
  · simp at h
  · next hf hr =>
    refine ⟨hf, hr, ?_⟩
    split at h
    · next hs => exact .inl ⟨hs, (Host.Outcome.next.inj h).symm⟩
    · next m ms hs => exact .inr ⟨m, ms, hs, h⟩

theorem step_of_move {s : State} {m : Move} {ms : List Move} (hf : s.fault = none) (hr : s.refusal = none)
    (hs : s.sched = m :: ms) : step s = runMove m { s with sched := ms } := by
  simp [step, advance, hf, hr, hs]

/-- What a move can be: nothing, an operation taken in a phase that accepts it, a refused record, the honk end step or
a tick. -/
theorem runMove_cases {m : Move} {s t : State} (h : runMove m s = .next t) :
    t = s ∨
    (m = .unit ∧ s.phase = .idle ∧ ∃ u us, s.hostUnits = u :: us ∧
      exec (decodeUnit u) { s with hostUnits := us } = .next t) ∨
    (m = .ctrl ∧ s.phase ≠ .honkBusy ∧ ∃ r rs i, s.ctrlOps = r :: rs ∧ decodeCtrl s.cfg r = .ok i ∧
      exec i { s with ctrlOps := rs } = .next t) ∨
    (m = .ctrl ∧ s.phase ≠ .honkBusy ∧ ∃ r rs e, s.ctrlOps = r :: rs ∧ decodeCtrl s.cfg r = .error e ∧
      t = refusedFor (refusalOf e) { s with ctrlOps := rs }) ∨
    (m = .honkEnd ∧ s.phase = .honkBusy ∧ t = honkEnd s) ∨
    (m = .tick ∧ s.tim.en = true ∧ t = tick s) := by
  cases m with
  | unit =>
    simp only [runMove, moveUnit, acceptsUnit, decide_eq_true_eq] at h
    split at h
    · exact .inl (Host.Outcome.next.inj h).symm
    · next u us hu =>
      split_ifs at h with hp
      · exact .inr (.inl ⟨rfl, hp, u, us, hu, h⟩)
      · exact .inl (Host.Outcome.next.inj h).symm
  | ctrl =>
    simp only [runMove, moveCtrl, acceptsCtrl, decide_eq_true_eq] at h
    split at h
    · exact .inl (Host.Outcome.next.inj h).symm
    · next r rs hr =>
      split_ifs at h with hp
      · split at h
        · next i hi => exact .inr (.inr (.inl ⟨rfl, hp, r, rs, i, hr, hi, h⟩))
        · next e he =>
          exact .inr (.inr (.inr (.inl ⟨rfl, hp, r, rs, e, hr, he, (Host.Outcome.next.inj h).symm⟩)))
      · exact .inl (Host.Outcome.next.inj h).symm
  | honkEnd =>
    simp only [runMove, moveHonkEnd] at h
    split_ifs at h with hp
    · exact .inr (.inr (.inr (.inr (.inl ⟨rfl, hp, (Host.Outcome.next.inj h).symm⟩))))
    · exact .inl (Host.Outcome.next.inj h).symm
  | tick =>
    simp only [runMove, moveTick] at h
    split_ifs at h with hp
    · exact .inr (.inr (.inr (.inr (.inr ⟨rfl, hp, (Host.Outcome.next.inj h).symm⟩))))
    · exact .inl (Host.Outcome.next.inj h).symm

/-- Every operation answers a next state: the spec's faults and refusals are recorded in it (log 2). -/
theorem exec_answers_next (i : Instr) (s : State) : ∃ t, exec i s = .next t := by
  cases i <;> exact ⟨_, rfl⟩

end Sys2Proof.Machine
end

