-- ==== Sys2Proof/Laws/Timer.lean ====
section
/-! SUPPORT. What every tick keeps, the counters after a tick, and the position of the counters in the period. -/

namespace Sys2Proof.Machine

/-- What no tick changes (20_memory R61). -/
structure TickKeeps (s t : State) : Prop where
  cfg : t.cfg = s.cfg
  car : t.car = s.car
  pwm : t.pwm = s.pwm
  phase : t.phase = s.phase
  lut : t.lut = s.lut
  psc : t.tim.psc = s.tim.psc
  arr : t.tim.arr = s.tim.arr
  timEn : t.tim.en = s.tim.en
  dmaState : t.dma.state = s.dma.state
  dacEn : t.dac.en = s.dac.en
  gpio : t.gpio = s.gpio
  clk : t.clk = s.clk
  diag : t.diag = s.diag

theorem tick_keeps (s : State) : TickKeeps s (tick s) := by
  rcases tick_cases s with ⟨p, c, dac, dma, d, h1, h2, h⟩ | ⟨k, h⟩ <;> rw [h]
  · exact ⟨rfl, rfl, rfl, rfl, rfl, rfl, rfl, rfl, h2, h1, rfl, rfl, rfl⟩
  · exact ⟨rfl, rfl, rfl, rfl, rfl, rfl, rfl, rfl, rfl, rfl, rfl, rfl, rfl⟩

theorem ticks_keeps (s : State) : ∀ n, TickKeeps s (ticks n s)
  | 0 => ⟨rfl, rfl, rfl, rfl, rfl, rfl, rfl, rfl, rfl, rfl, rfl, rfl, rfl⟩
  | n + 1 => by
    have h := ticks_keeps s n
    have h' := tick_keeps (ticks n s)
    exact ⟨h'.cfg.trans h.cfg, h'.car.trans h.car, h'.pwm.trans h.pwm, h'.phase.trans h.phase, h'.lut.trans h.lut,
      h'.psc.trans h.psc, h'.arr.trans h.arr, h'.timEn.trans h.timEn, h'.dmaState.trans h.dmaState,
      h'.dacEn.trans h.dacEn, h'.gpio.trans h.gpio, h'.clk.trans h.clk, h'.diag.trans h.diag⟩

/-- An overflow leaves the timer registers alone. -/
theorem overflowed_tim (s : State) : (settle s (overflowed s)).tim = s.tim := by
  cases h : overflowed s with
  | error k => rfl
  | ok t =>
    unfold overflowed at h
    split_ifs at h
    · obtain ⟨T, i, d, -, -, rfl⟩ := transferred_cases h
      rfl
    · obtain rfl := Except.ok.inj h
      rfl

/-- A transfer that has a table does not fault. -/
theorem overflowed_ok {s : State} (h : s.dma.state = .armed → s.lut ≠ none) : ∃ t, overflowed s = .ok t := by
  cases ho : overflowed s with
  | ok t => exact ⟨t, rfl⟩
  | error k =>
    unfold overflowed at ho
    split_ifs at ho with ha
    exact absurd (transferred_error ho) (h ha)

/-- The timer registers after a tick (41_audio R158). -/
theorem tick_tim {s : State} {psc arr : Nat} (hp : s.tim.psc = some psc) (ha : s.tim.arr = some arr)
    (hl : s.dma.state = .armed → s.lut ≠ none) : (tick s).tim =
      if s.tim.pcnt < psc then { s.tim with pcnt := s.tim.pcnt + 1 }
      else if s.tim.cnt < arr then { s.tim with pcnt := 0, cnt := s.tim.cnt + 1 }
      else { s.tim with pcnt := 0, cnt := 0 } := by
  cases ho : overflowsNow s with
  | false =>
    rcases tick_counting hp ha ho with ⟨h1, h⟩ | ⟨h1, h2, h⟩
    · rw [h, if_pos h1]
    · rw [h, if_neg (Nat.not_lt.2 h1), if_pos h2]
  | true =>
    obtain ⟨h1, h2⟩ := (overflowsNow_iff hp ha).1 ho
    obtain ⟨t, ht⟩ := overflowed_ok (s := { s with tim := { s.tim with pcnt := 0, cnt := 0 } }) hl
    have htim := overflowed_tim { s with tim := { s.tim with pcnt := 0, cnt := 0 } }
    rw [ht] at htim
    rw [tick_overflow hp ha ho, ht, if_neg (Nat.not_lt.2 h1), if_neg (Nat.not_lt.2 h2)]
    exact htim

/-- The place of the counters in the period: the number of ticks since both were cleared. -/
def position (psc : Nat) (t : Timer) : Nat := t.cnt * (psc + 1) + t.pcnt

/-- The counters lie within their periods. -/
abbrev Counting (psc arr : Nat) (s : State) : Prop :=
  s.tim.psc = some psc ∧ s.tim.arr = some arr ∧ s.tim.pcnt ≤ psc ∧ s.tim.cnt ≤ arr ∧
    (s.dma.state = .armed → s.lut ≠ none)

/-- A tick moves the position on by one, from the last of the period to 0, and the last is the overflow. -/
theorem position_tick {s : State} {psc arr : Nat} (h : Counting psc arr s) :
    Counting psc arr (tick s) ∧
      (overflowsNow s = true ↔ position psc s.tim + 1 = (psc + 1) * (arr + 1)) ∧
      position psc (tick s).tim =
        if position psc s.tim + 1 = (psc + 1) * (arr + 1) then 0 else position psc s.tim + 1 := by
  obtain ⟨hp, ha, h1, h2, hl⟩ := h
  have hk := tick_keeps s
  have ht := tick_tim hp ha hl
  have hov : overflowsNow s = true ↔ position psc s.tim + 1 = (psc + 1) * (arr + 1) := by
    rw [overflowsNow_iff hp ha, position]
    constructor
    · rintro ⟨h3, h4⟩
      rw [Nat.le_antisymm h1 h3, Nat.le_antisymm h2 h4]
      ring
    · intro h
      have hc : s.tim.cnt = arr := by
        by_contra hne
        have : s.tim.cnt + 1 ≤ arr := by omega
        nlinarith
      subst hc
      exact ⟨by nlinarith, le_refl _⟩
  have hpos : position psc (tick s).tim =
      if position psc s.tim + 1 = (psc + 1) * (arr + 1) then 0 else position psc s.tim + 1 := by
    by_cases ho : position psc s.tim + 1 = (psc + 1) * (arr + 1)
    · obtain ⟨h3, h4⟩ := (overflowsNow_iff hp ha).1 (hov.2 ho)
      rw [if_pos ho, ht, if_neg (Nat.not_lt.2 h3), if_neg (Nat.not_lt.2 h4)]
      simp [position]
    · rw [if_neg ho, ht]
      have hn : ¬ (psc ≤ s.tim.pcnt ∧ arr ≤ s.tim.cnt) := fun h => ho (hov.1 ((overflowsNow_iff hp ha).2 h))
      by_cases h3 : s.tim.pcnt < psc
      · rw [if_pos h3]; simp [position, Nat.add_assoc]
      · have h4 : s.tim.cnt < arr := by omega
        have h5 : s.tim.pcnt = psc := by omega
        rw [if_neg h3, if_pos h4]
        simp only [position, h5]
        ring
  refine ⟨⟨hk.psc.trans hp, hk.arr.trans ha, ?_, ?_, fun h => ?_⟩, hov, hpos⟩
  · rw [ht]; split_ifs <;> (simp; try omega)
  · rw [ht]; split_ifs <;> (simp; try omega)
  · rw [hk.lut]; exact hl (hk.dmaState ▸ h)

end Sys2Proof.Machine
end

