-- ==== Sys2Proof/Laws/Runs.lean ====
section
/-! SUPPORT. What an event of a run can do. -/

namespace Sys2Proof.Machine

theorem running_iff {s : State} : s.running = true ↔ s.fault = none ∧ s.refusal = none := by simp [State.running]

/-- A move of a run is taken in a running state that enables it, and is one `runMove`. -/
theorem leads_move {m : Move} {s t : State} (h : (Event.move m).Leads s t) :
    m.enabled s = true ∧ s.running = true ∧ runMove m { s with sched := [] } = .next t := by
  obtain ⟨he, hs⟩ := h
  have hr : s.running = true := by
    unfold Move.enabled at he
    exact (Bool.and_eq_true _ _ ▸ he).1
  obtain ⟨hf, hx⟩ := running_iff.1 hr
  exact ⟨he, hr, (step_of_move (s := { s with sched := [m] }) hf hx rfl).symm.trans hs⟩

/-- What a move of a run does, by the move. -/
theorem leads_cases {m : Move} {s t : State} (h : (Event.move m).Leads s t) :
    (m = .unit ∧ s.phase = .idle ∧ ∃ u us, s.hostUnits = u :: us ∧
      exec (decodeUnit u) { s with sched := [], hostUnits := us } = .next t) ∨
    (m = .ctrl ∧ s.phase ≠ .honkBusy ∧ ∃ r rs, s.ctrlOps = r :: rs ∧
      ((∃ i, decodeCtrl s.cfg r = .ok i ∧ exec i { s with sched := [], ctrlOps := rs } = .next t) ∨
        ∃ e, t = refusedFor (refusalOf e) { s with sched := [], ctrlOps := rs })) ∨
    (m = .honkEnd ∧ s.phase = .honkBusy ∧ t = honkEnd { s with sched := [] }) ∨
    (m = .tick ∧ s.tim.en = true ∧ t = tick { s with sched := [] }) := by
  obtain ⟨he, hr, hm⟩ := leads_move h
  cases m with
  | unit =>
    simp only [Move.enabled, hr, acceptsUnit, Bool.true_and, Bool.and_eq_true, decide_eq_true_eq] at he
    refine .inl ⟨rfl, he.1, ?_⟩
    cases hu : s.hostUnits with
    | nil => simp [hu] at he
    | cons u us =>
      refine ⟨u, us, rfl, ?_⟩
      simpa [runMove, moveUnit, hu, acceptsUnit, he.1] using hm
  | ctrl =>
    simp only [Move.enabled, hr, acceptsCtrl, Bool.true_and, Bool.and_eq_true, decide_eq_true_eq] at he
    refine .inr (.inl ⟨rfl, he.1, ?_⟩)
    cases hc : s.ctrlOps with
    | nil => simp [hc] at he
    | cons r rs =>
      refine ⟨r, rs, rfl, ?_⟩
      simp only [runMove, moveCtrl, hc, acceptsCtrl, he.1, ne_eq, not_false_eq_true, decide_true, if_true] at hm
      split at hm
      · next i hi => exact .inl ⟨i, hi, hm⟩
      · next e _ => exact .inr ⟨e, (Host.Outcome.next.inj hm).symm⟩
  | honkEnd =>
    simp only [Move.enabled, hr, Bool.true_and, decide_eq_true_eq] at he
    refine .inr (.inr (.inl ⟨rfl, he, ?_⟩))
    simp only [runMove, moveHonkEnd, he, if_true] at hm
    exact (Host.Outcome.next.inj hm).symm
  | tick =>
    simp only [Move.enabled, hr, Bool.true_and] at he
    refine .inr (.inr (.inr ⟨rfl, he, ?_⟩))
    simp only [runMove, moveTick, he, if_true] at hm
    exact (Host.Outcome.next.inj hm).symm

/-- A move that the state does not enable is no step of any agent. -/
theorem runMove_disabled {m : Move} {s : State} (hr : s.running = true) (h : m.enabled s = false) :
    runMove m s = .next s := by
  cases m with
  | unit =>
    simp only [Move.enabled, hr, Bool.true_and, Bool.and_eq_false_iff] at h
    show moveUnit s = _
    unfold moveUnit
    split
    · rfl
    · next u us hu =>
      have : acceptsUnit s = false := h.resolve_right (by simp [hu])
      simp [this]
  | ctrl =>
    simp only [Move.enabled, hr, Bool.true_and, Bool.and_eq_false_iff] at h
    show moveCtrl s = _
    unfold moveCtrl
    split
    · rfl
    · next u us hu =>
      have : acceptsCtrl s = false := h.resolve_right (by simp [hu])
      simp [this]
  | honkEnd =>
    simp only [Move.enabled, hr, Bool.true_and, decide_eq_false_iff_not] at h
    simp [runMove, moveHonkEnd, h]
  | tick =>
    simp only [Move.enabled, hr, Bool.true_and] at h
    simp [runMove, moveTick, h]

/-- No event of a run stops the timer. -/
theorem leads_timEn {e : Event} {s t : State} (h : e.Leads s t) (hen : s.tim.en = true) : t.tim.en = true := by
  cases e with
  | move m =>
    rcases leads_cases h with ⟨-, -, u, us, -, hx⟩ | ⟨-, -, r, rs, -, ⟨i, -, hx⟩ | ⟨e, rfl⟩⟩ | ⟨-, -, rfl⟩ | ⟨-, -, rfl⟩
    · exact (exec_keeps hx).timEn hen
    · exact (exec_keeps hx).timEn hen
    · exact hen
    · exact hen
    · rw [(tick_keeps _).timEn]; exact hen
  | sends b => obtain ⟨-, rfl⟩ := h; exact hen
  | issues r => obtain ⟨-, rfl⟩ := h; exact hen
  | nothing => exact h ▸ hen

end Sys2Proof.Machine
end

