-- ==== Sys2Proof/Tests/Slice0.lean ====
section
/-! SUPPORT. Tests on small states. The expected results are those of spec/95_test_vectors.md (the vector is named at each
test) and of the encoding tables of 30_encoding, never the model's own answers. The last section shows, for each
statement with hypotheses, states and operands that meet them. -/

namespace Sys2Proof.Tests

open Sys2Proof Sys2Proof.Machine

/-! ## Helpers -/

/-- The state after reset, with the parameters of the vectors. -/
def fresh : State := State.resetWith Config.vectors

/-- Phase IDLE, the clock of port 0 on, both motors at rest. -/
def ready : State := { fresh with phase := .idle, clk := [0] }

/-- `ready` with the given motors: left duty, left direction, right duty, right direction. -/
def driving (dl : BitVec 10) (l : Dir) (dr : BitVec 10) (r : Dir) : State := { ready with car := ⟨⟨dl, l⟩, ⟨dr, r⟩⟩ }

/-- A property of the next state. -/
def afterwards (o : Host.Outcome State Fault Refusal) (p : State → Bool) : Bool :=
  match o with
  | .next t => p t
  | _ => false

/-- The car, the status and the direction latches (left, right) after a motor operation. -/
def MotorResult (i : Instr) (s : State) (c : Car) (st : Status) (left right : Bool × Bool) : Bool :=
  afterwards (exec i s) fun t =>
    decide (t.car = c) && decide (t.pwm = ⟨some c.left.duty, some c.right.duty⟩) &&
    decide (t.reply = some ⟨st, none⟩) &&
    decide (t.dirLatches .left = (some left.1, some left.2)) &&
    decide (t.dirLatches .right = (some right.1, some right.2))

/-- The physical pin the GPIO tests use. -/
def pinA : PinName := .motorDirA .left

/-- A GPIO operation ends with a status and leaves the pin with the given fields and the clock of port 0 on or off. -/
def GpioResult (i : Instr) (s : State) (st : Status) (f : PinFields) (clock : Bool) : Bool :=
  afterwards (exec i s) fun t =>
    decide (t.reply = some ⟨st, none⟩) && decide (t.pin ⟨0, 0⟩ = f) && decide (t.clockOn 0 = clock) &&
    decide (t.pin ⟨0, 1⟩ = s.pin ⟨0, 1⟩)

/-- A table whose entry i is i, to see which entry a transfer takes. -/
def countingTable : Vector Nat tableLen := Vector.ofFn fun i => (i : Nat)

/-- A running timer, and the DMA ARMED at an index. -/
def streaming (psc arr pcnt cnt : Nat) (i : Fin tableLen) : State :=
  { ready with tim := ⟨true, some psc, some arr, pcnt, cnt⟩, lut := some countingTable, dma := ⟨.armed, some i⟩ }

/-! ## Well-formedness: an ill-formed term for each check -/

theorem test_wellFormed_unrecognized : (Instr.unrecognized [0x57]).wellFormed Config.vectors = false := by decide
theorem test_wellFormed_gpioMode : (Instr.gpioMode (.other 0) 1).wellFormed Config.vectors = false := by decide
theorem test_wellFormed_gpioPull : (Instr.gpioPull (.other 0) 1).wellFormed Config.vectors = false := by decide
theorem test_wellFormed_gpioOtype : (Instr.gpioOtype (.other 0) 1).wellFormed Config.vectors = false := by decide
theorem test_wellFormed_gpioSpeed : (Instr.gpioSpeed (.other 0) 1).wellFormed Config.vectors = false := by decide
theorem test_wellFormed_gpioAf : (Instr.gpioAf (.other 0) 1).wellFormed Config.vectors = false := by decide
theorem test_wellFormed_gpioWrite : (Instr.gpioWrite (.other 0) true).wellFormed Config.vectors = false := by decide
theorem test_wellFormed_gpioRead : (Instr.gpioRead (.other 0)).wellFormed Config.vectors = false := by decide
theorem test_wellFormed_unit : (Instr.unrecognized [0x57, 0x45]).wellFormed Config.vectors = true := by decide
theorem test_wellFormed_pin : (Instr.gpioRead .dacOut).wellFormed Config.vectors = true := by decide

/-! ## Decoding: words written out from 30_encoding R73 and R79 -/

theorem test_decode_drive : decodeUnit [0b01010111] = .drive := by decide
theorem test_decode_accelerate : decodeUnit [0b01000101] = .accelerate := by decide
theorem test_decode_brake : decodeUnit [0b01010011] = .brake := by decide
theorem test_decode_stop : decodeUnit [0b01000110] = .stop := by decide
theorem test_decode_turnLeft : decodeUnit [0b01000001] = .turnLeft := by decide
theorem test_decode_turnRight : decodeUnit [0b01000100] = .turnRight := by decide
theorem test_decode_reverse : decodeUnit [0b01010010] = .reverse := by decide
theorem test_decode_honk : decodeUnit [0b01001000] = .honk := by decide

/-- 95_test_vectors 2.1: case, length, CR and bit 7 matter. -/
theorem test_decode_unrecognized :
    decodeUnit [0x77] = .unrecognized [0x77] ∧ decodeUnit [0x68] = .unrecognized [0x68] ∧
    decodeUnit [] = .unrecognized [] ∧ decodeUnit [0x57, 0x0D] = .unrecognized [0x57, 0x0D] ∧
    decodeUnit [0x57, 0x45] = .unrecognized [0x57, 0x45] ∧ decodeUnit [0x00] = .unrecognized [0x00] ∧
    decodeUnit [0xD7] = .unrecognized [0xD7] ∧ decodeUnit [0x42] = .unrecognized [0x42] := by decide

theorem test_decode_gpioMode :
    decodeCtrl Config.vectors ⟨0b00000001, 0, 4, 9⟩ = .ok (.gpioMode (.motorDirA .left) 4) := by decide
theorem test_decode_gpioPull :
    decodeCtrl Config.vectors ⟨0b00000010, 1, 3, 9⟩ = .ok (.gpioPull (.motorDirB .left) 3) := by decide
theorem test_decode_gpioOtype :
    decodeCtrl Config.vectors ⟨0b00000011, 2, 2, 9⟩ = .ok (.gpioOtype (.motorDirA .right) 2) := by decide
theorem test_decode_gpioSpeed :
    decodeCtrl Config.vectors ⟨0b00000100, 3, 3, 9⟩ = .ok (.gpioSpeed (.motorDirB .right) 3) := by decide
theorem test_decode_gpioAf :
    decodeCtrl Config.vectors ⟨0b00000101, 4, 16, 9⟩ = .ok (.gpioAf (.motorPwm .left) 16) := by decide
theorem test_decode_gpioWrite :
    decodeCtrl Config.vectors ⟨0b00000110, 5, 9, 1⟩ = .ok (.gpioWrite (.motorPwm .right) true) ∧
    decodeCtrl Config.vectors ⟨0b00000110, 5, 9, 0⟩ = .ok (.gpioWrite (.motorPwm .right) false) := by decide
theorem test_decode_gpioRead :
    decodeCtrl Config.vectors ⟨0b00000111, 6, 9, 9⟩ = .ok (.gpioRead .dacOut) := by decide
theorem test_decode_lutInit : decodeCtrl Config.vectors ⟨0b00010000, 99, 1, 2⟩ = .ok .lutInit := by decide
theorem test_decode_dacEnable : decodeCtrl Config.vectors ⟨0b00010001, 99, 1, 2⟩ = .ok .dacEnable := by decide
theorem test_decode_timClockSet :
    decodeCtrl Config.vectors ⟨0b00010010, 99, 65536, 2⟩ = .ok (.timClockSet 65536 2) := by decide
theorem test_decode_timStart : decodeCtrl Config.vectors ⟨0b00010011, 99, 1, 2⟩ = .ok .timStart := by decide
theorem test_decode_dmaArm : decodeCtrl Config.vectors ⟨0b00010100, 99, 1, 2⟩ = .ok .dmaArm := by decide
theorem test_decode_dmaDisarm : decodeCtrl Config.vectors ⟨0b00010101, 99, 1, 2⟩ = .ok .dmaDisarm := by decide
theorem test_decode_bootDone : decodeCtrl Config.vectors ⟨0b00100000, 99, 1, 2⟩ = .ok .bootDone := by decide

/-- 30_encoding R81: the refusals, a bad pin before a bad write value. -/
theorem test_decode_refusals :
    decodeCtrl Config.vectors ⟨0x08, 0, 0, 0⟩ = .error .badSelector ∧
    decodeCtrl Config.vectors ⟨0x00, 0, 0, 0⟩ = .error .badSelector ∧
    decodeCtrl Config.vectors ⟨0x01, 7, 0, 0⟩ = .error .badPin ∧
    decodeCtrl Config.vectors ⟨0x06, 0, 0, 2⟩ = .error .badWriteValue ∧
    decodeCtrl Config.vectors ⟨0x06, 7, 0, 2⟩ = .error .badPin := by decide

/-- Words as spec/opcode_table.json numbers them, with the parameters of `State.reset`. -/
theorem test_tableWord :
    decodeTableWord 8 0x45 = some .accelerate ∧ decodeTableWord 8 0x10 = some .lutInit ∧
    decodeTableWord 48 0x000000030601 = some (.gpioMode .dacOut 3) ∧
    decodeTableWord 80 0x16000000000012 = some (.timClockSet 0 22) ∧
    decodeTableWord 8 0x08 = some (.unrecognized [0x08]) := by decide

/-- 95_test_vectors 1.3, P6: the wire form of units. -/
theorem test_framing :
    unitsOf [0x57, 0x0A, 0x57, 0x45, 0x0A, 0x0A, 0x53] = [[0x57], [0x57, 0x45], []] ∧ wireOf [0x57] = [0x57, 0x0A] := by
  decide

/-! ## Motor operations: 95_test_vectors 2.2 and 2.3 -/

/-- 95_test_vectors 2.2. -/
theorem test_clamp :
    [-30, 0, 30, 299, 300, 301, 1023, 1024, 1053].map clampDuty = [0, 0, 0, 0, 300, 301, 1023, 1023, 1023] := by decide

theorem test_drive_M1 : MotorResult .drive ready ⟨⟨600, .forward⟩, ⟨600, .forward⟩⟩ .ok (true, false) (true, false) := by
  decide
theorem test_drive_M5 : MotorResult .drive (driving 0 .stopped 630 .forward) ⟨⟨0, .stopped⟩, ⟨630, .forward⟩⟩
    .noTransition (false, false) (true, false) := by decide
theorem test_reverse_M2 : MotorResult .reverse ready ⟨⟨600, .backward⟩, ⟨600, .backward⟩⟩ .ok
    (false, true) (false, true) := by decide
theorem test_reverse_M6 : MotorResult .reverse (driving 0 .stopped 630 .forward) ⟨⟨0, .stopped⟩, ⟨630, .forward⟩⟩
    .noTransition (false, false) (true, false) := by decide
theorem test_accelerate_M8 : MotorResult .accelerate (driving 993 .forward 994 .forward)
    ⟨⟨1023, .forward⟩, ⟨1023, .forward⟩⟩ .ok (true, false) (true, false) := by decide +kernel
theorem test_accelerate_M10 : MotorResult .accelerate (driving 0 .stopped 630 .forward)
    ⟨⟨0, .stopped⟩, ⟨660, .forward⟩⟩ .ok (false, false) (true, false) := by decide +kernel
theorem test_brake_M11 : MotorResult .brake (driving 330 .forward 329 .forward)
    ⟨⟨300, .forward⟩, ⟨0, .stopped⟩⟩ .ok (true, false) (false, false) := by decide
theorem test_brake_M13 : MotorResult .brake ready ⟨⟨0, .stopped⟩, ⟨0, .stopped⟩⟩ .ok (false, false) (false, false) := by
  decide
theorem test_stop_M14 : MotorResult .stop (driving 1023 .backward 570 .backward) ⟨⟨0, .stopped⟩, ⟨0, .stopped⟩⟩ .ok
    (false, false) (false, false) := by decide
theorem test_turnLeft_M16 : MotorResult .turnLeft (driving 600 .forward 600 .forward)
    ⟨⟨570, .forward⟩, ⟨600, .forward⟩⟩ .ok (true, false) (true, false) := by decide
theorem test_turnLeft_M17 : MotorResult .turnLeft (driving 300 .forward 600 .forward)
    ⟨⟨0, .stopped⟩, ⟨600, .forward⟩⟩ .ok (false, false) (true, false) := by decide
theorem test_turnRight_M19 : MotorResult .turnRight (driving 600 .backward 600 .backward)
    ⟨⟨600, .backward⟩, ⟨570, .backward⟩⟩ .ok (false, true) (false, true) := by decide
theorem test_turnRight_M21 : MotorResult .turnRight (driving 600 .forward 303 .forward)
    ⟨⟨600, .forward⟩, ⟨0, .stopped⟩⟩ .ok (true, false) (false, false) := by decide

/-- 40_motor R103: without the clock of a direction pin a motor operation faults, and the car stays. -/
theorem test_stop_clockOff : afterwards (exec .stop { driving 600 .forward 600 .forward with clk := [] })
    (fun t => decide (t.car = ⟨⟨600, .forward⟩, ⟨600, .forward⟩⟩) && decide (t.fault = some .gpioClockOff) &&
      decide (t.pwm = ⟨none, none⟩)) := by decide

/-- 95_test_vectors 2.1, P6. -/
theorem test_unrecognized : afterwards (exec (.unrecognized [0x57, 0x45]) (driving 600 .forward 600 .forward))
    (fun t => decide (t.diag = [.unrecognizedCommand]) && decide (t.car = ⟨⟨600, .forward⟩, ⟨600, .forward⟩⟩) &&
      decide (t.reply = none)) := by decide

/-- 95_test_vectors P5, the BOOT_DONE step. -/
theorem test_bootDone_P5 : afterwards (exec .bootDone { fresh with clk := [0] })
    (fun t => decide (t.phase = .idle) && decide (t.pwm = ⟨some 0, some 0⟩) &&
      decide (t.dirLatches .left = (some false, some false))) := by decide
/-- 95_test_vectors G18, X5. -/
theorem test_bootDone_G18_X5 :
    afterwards (exec .bootDone fresh) (fun t => decide (t.fault = some .gpioClockOff) && decide (t.phase = .boot)) ∧
    afterwards (exec .bootDone ready) (fun t => decide (t.refusal = some .bootDoneTwice) && t.refused) := by decide

/-! ## GPIO operations: 95_test_vectors 2.7 -/

theorem test_gpioMode_G1 : GpioResult (.gpioMode pinA 1) fresh .ok { PinFields.fresh with mode := some 0b01 } true := by
  decide
theorem test_gpioMode_G2 : GpioResult (.gpioMode pinA 4) fresh .invalidConfiguration PinFields.fresh false := by decide
theorem test_gpioAf_G3 : GpioResult (.gpioAf pinA 15) fresh .ok { PinFields.fresh with af := some 15 } true := by decide
theorem test_gpioAf_G4 : GpioResult (.gpioAf pinA 16) fresh .invalidConfiguration PinFields.fresh false := by decide
theorem test_gpioPull_G5_G6 :
    afterwards (exec (.gpioPull pinA 0) fresh) (fun t => decide (t.fault = some .gpioClockOff)) ∧
    GpioResult (.gpioPull pinA 3) fresh .invalidConfiguration PinFields.fresh false := by decide
theorem test_gpioPull_G7 : GpioResult (.gpioPull pinA 2) ready .ok { PinFields.fresh with pull := some 0b10 } true := by
  decide
theorem test_gpioOtype_G9 : GpioResult (.gpioOtype pinA 1) ready .ok { PinFields.fresh with otype := some 1 } true := by
  decide
theorem test_gpioOtype_G10 : GpioResult (.gpioOtype pinA 2) ready .invalidConfiguration PinFields.fresh true := by decide
theorem test_gpioSpeed_G11 : GpioResult (.gpioSpeed pinA 3) ready .ok { PinFields.fresh with speed := some 3 } true := by
  decide
theorem test_gpioSpeed_G12 : GpioResult (.gpioSpeed pinA 4) ready .invalidConfiguration PinFields.fresh true := by decide
theorem test_gpioWrite_G13 : GpioResult (.gpioWrite pinA true) ready .ok { PinFields.fresh with out := some true } true := by
  decide
theorem test_gpioWrite_G15 : afterwards (exec (.gpioWrite pinA true) fresh)
    (fun t => decide (t.fault = some .gpioClockOff) && decide (t.gpio = [])) := by decide
/-- 95_test_vectors G16: the level is a draw, the status is OK, the pins stay. -/
theorem test_gpioRead_G16 : afterwards (exec (.gpioRead pinA) ready)
    (fun t => decide (t.reply.map Reply.status = some .ok) && decide (t.gpio = []) && decide (t.fault = none)) := by decide
theorem test_gpioRead_clockOff : afterwards (exec (.gpioRead pinA) fresh)
    (fun t => decide (t.fault = some .gpioClockOff)) := by decide

/-! ## LUT: 95_test_vectors 2.4 -/

/-- FULL_SCALE = 4095, ties 2048. -/
theorem test_lut_4095 :
    [0, 1, 2, 3, 9, 12, 24, 25, 26, 37, 41].map (lutEntry Config.vectors) =
      [2048, 2176, 2304, 2431, 3145, 3449, 4091, 4095, 4091, 3540, 3145] := by decide +kernel
theorem test_lut_4095_second_half :
    [49, 50, 51, 59, 74, 75, 76, 91, 98, 99].map (lutEntry Config.vectors) =
      [2176, 2048, 1919, 950, 4, 0, 4, 950, 1791, 1919] := by decide +kernel
/-- FULL_SCALE = 255, ties 128. -/
theorem test_lut_255 :
    [0, 1, 10, 25, 50, 60, 75, 99].map (lutEntry { Config.vectors with fullScale := 255, lutTie0 := 128, lutTie50 := 128 })
      = [128, 136, 202, 255, 128, 53, 0, 119] := by decide +kernel
/-- FULL_SCALE = 4096, no ties. -/
theorem test_lut_4096 :
    [0, 1, 10, 25, 60, 75, 99].map (lutEntry { Config.vectors with fullScale := 4096, dacBits := 13 }) =
      [2048, 2177, 3252, 4096, 844, 0, 1919] := by decide +kernel
/-- 95_test_vectors 2.4: a second LUT_INIT is refused. -/
theorem test_lutInit_twice : afterwards (exec .lutInit { ready with lut := some countingTable })
    (fun t => decide (t.refusal = some .lutReinit) && decide (t.lut = some countingTable)) := by decide

/-! ## Timer: 95_test_vectors 2.5 -/

/-- T1 at ticks 6 and 7: psc 1, arr 2. -/
theorem test_tick_T1 :
    overflowsNow (streaming 1 2 1 2 0) = true ∧ overflowsNow (streaming 1 2 0 2 0) = false ∧
    (tick (streaming 1 2 1 2 0)).tim = ⟨true, some 1, some 2, 0, 0⟩ ∧
    (tick (streaming 1 2 0 0 0)).tim = ⟨true, some 1, some 2, 1, 0⟩ ∧
    (tick (streaming 1 2 1 0 0)).tim = ⟨true, some 1, some 2, 0, 1⟩ := by decide
theorem test_timClockSet_range :
    afterwards (exec (.timClockSet 65536 1) ready) (fun t => decide (t.refusal = some .timerRange)) ∧
    afterwards (exec (.timClockSet 0 65536) ready) (fun t => decide (t.refusal = some .timerRange)) ∧
    afterwards (exec (.timClockSet 2 0) ready) (fun t => decide (t.refusal = some .timerRange)) := by decide
/-- T6: TIM_CLOCK_SET 1, 2 after tick 15 clears the counters; the DMA stays. -/
theorem test_timClockSet_T6 : afterwards (exec (.timClockSet 1 2) (streaming 0 9 0 5 37))
    (fun t => decide (t.tim = ⟨true, some 1, some 2, 0, 0⟩) && decide (t.dma = ⟨.armed, some 37⟩)) := by decide
theorem test_timStart :
    afterwards (exec .timStart fresh) (fun t => decide (t.fault = some .timerUnconfigured)) ∧
    afterwards (exec .timStart { fresh with tim := ⟨false, some 0, some 9, 0, 0⟩ })
      (fun t => decide (t.tim = ⟨true, some 0, some 9, 0, 0⟩)) := by decide
/-- 95_test_vectors 2.5: 100 kHz and 1000 Hz at psc 0, arr 9 and 1 MHz. -/
theorem test_frequency : (streaming 0 9 0 0 0).overflowHz = some 100000 ∧ (streaming 0 9 0 0 0).toneHz = some 1000 := by
  decide +kernel

/-! ## DMA, DAC, HONK: 95_test_vectors 2.6 and P4 -/

theorem test_dmaArm_A1_A3 :
    afterwards (exec .dmaArm ready) (fun t => decide (t.fault = some .lutUninit)) ∧
    afterwards (exec .dmaArm (streaming 0 9 0 0 37)) (fun t => decide (t.dma = ⟨.armed, some 37⟩)) := by decide
theorem test_dmaArm_A2 : afterwards (exec .dmaArm { ready with lut := some countingTable })
    (fun t => decide (t.dma.state = .armed) && t.dma.idx.isSome) := by decide
/-- A4 and A5, with entry i of the table equal to i. -/
theorem test_transfer_A4_A5 :
    (tick (streaming 0 1 0 1 24)).dac.data = some 24 ∧ (tick (streaming 0 1 0 1 24)).dma.idx = some 25 ∧
    (tick (streaming 0 1 0 1 99)).dac.data = some 99 ∧ (tick (streaming 0 1 0 1 99)).dma.idx = some 0 := by decide
theorem test_dmaDisarm_A6 : afterwards (exec .dmaDisarm { streaming 0 9 0 0 25 with dac := ⟨true, some 4091⟩ })
    (fun t => decide (t.dma = ⟨.idle, some 25⟩) && decide (t.dac = ⟨true, some 4091⟩)) := by decide
/-- A7: an overflow while IDLE is not latched. -/
theorem test_overflow_A7 :
    (tick { streaming 0 1 0 1 25 with dma := ⟨.idle, some 25⟩, dac := ⟨true, some 4091⟩ }).dac = ⟨true, some 4091⟩ := by
  decide
/-- A10: no analog output until DAC_ENABLE, then that of the data register. -/
theorem test_dacEnable_A10 :
    (tick (streaming 0 1 0 1 0)).analogOutput = none ∧
    afterwards (exec .dacEnable (tick (streaming 0 1 0 1 7))) (fun t => decide (t.analogOutput = some 7)) := by decide
theorem test_honk_P4 : afterwards (exec .honk { driving 600 .forward 600 .forward with lut := some countingTable })
    (fun t => decide (t.phase = .honkBusy) && decide (t.dma.state = .armed) &&
      decide (t.car = ⟨⟨600, .forward⟩, ⟨600, .forward⟩⟩)) := by decide
theorem test_honk_uninit : afterwards (exec .honk ready)
    (fun t => decide (t.fault = some .lutUninit) && decide (t.phase = .idle)) := by decide

/-! ## Steps: 95_test_vectors 2.8 -/

/-- X1, X2, X3: a unit in BOOT or HONK_BUSY and a record in HONK_BUSY wait. -/
theorem test_step_waits :
    afterwards (step { fresh with sched := [.unit], hostUnits := [[0x57]] })
      (fun t => decide (t = { fresh with hostUnits := [[0x57]] })) ∧
    afterwards (step { ready with phase := .honkBusy, sched := [.unit], hostUnits := [[0x46]] })
      (fun t => decide (t.hostUnits = [[0x46]])) ∧
    afterwards (step { ready with phase := .honkBusy, sched := [.ctrl], ctrlOps := [⟨0x15, 0, 0, 0⟩] })
      (fun t => decide (t.ctrlOps = [⟨0x15, 0, 0, 0⟩])) := by decide
/-- A unit is taken in IDLE, a record in BOOT. -/
theorem test_step_takes :
    afterwards (step { ready with sched := [.unit], hostUnits := [[0x57], [0x46]] })
      (fun t => decide (t.car = ⟨⟨600, .forward⟩, ⟨600, .forward⟩⟩) && decide (t.hostUnits = [[0x46]])) ∧
    afterwards (step { fresh with sched := [.ctrl], ctrlOps := [⟨0x11, 0, 0, 0⟩] })
      (fun t => decide (t.dac.en = true) && decide (t.ctrlOps = [])) := by decide
/-- G14, G17: a record the decoder refuses. -/
theorem test_step_refuses :
    afterwards (step { ready with sched := [.ctrl], ctrlOps := [⟨0x08, 0, 0, 0⟩] })
      (fun t => decide (t.refusal = some .badSelector)) ∧
    afterwards (step { ready with sched := [.ctrl], ctrlOps := [⟨0x06, 0, 0, 2⟩] })
      (fun t => decide (t.refusal = some .badWriteValue)) := by decide
/-- The honk end step of P4. -/
theorem test_step_honkEnd : afterwards (step { streaming 0 9 0 0 3 with phase := .honkBusy, sched := [.honkEnd] })
    (fun t => decide (t.dma = ⟨.idle, some 3⟩) && decide (t.phase = .idle) && decide (t.reply = some ⟨.ok, none⟩)) := by
  decide
/-- X6: after a fault no agent steps. -/
theorem test_step_stopped : step { ready with fault := some .gpioClockOff, sched := [.tick] } = .fault .gpioClockOff := rfl
/-- An instruction placed where the next step fetches runs from reset. -/
theorem test_withFetchWord :
    afterwards (step (State.reset.withFetchWord 8 0x11)) (fun t => decide (t.dac.en = true)) := by decide
/-- 60_exceptions R240: a power cycle is a reset of the block. -/
theorem test_powerCycle : (driving 600 .forward 600 .forward).powerCycle = fresh := by decide

/-! ## The launch premise -/

/-- A pin with a mode and a function, and its latch. -/
def pinAs (k : Nat) (mode : BitVec 2) (af : Option (BitVec 4)) (out : Option Bool) : PhysPin × PinFields :=
  (⟨0, k⟩, { PinFields.fresh with mode := some mode, af := af, out := out })

/-- The state of 70_reset_and_hazards R264 with the parameters of the vectors, and two units the HOST holds. -/
def booted : State := { fresh with
  phase := .idle, pwm := ⟨some 0, some 0⟩, clk := [0], lut := some (lutTable Config.vectors), dac := ⟨true, none⟩,
  tim := ⟨true, some 0, some 9, 0, 5⟩, hostUnits := [[0x57], [0x48]],
  gpio := [pinAs 0 1 none (some false), pinAs 1 1 none (some false), pinAs 2 1 none (some false),
    pinAs 3 1 none (some false), pinAs 4 2 (some 2) none, pinAs 5 2 (some 2) none, pinAs 6 3 none none] }

theorem test_booted : Booted [[0x57], [0x48]] 0 9 booted where
  host := rfl
  phase := rfl
  noStop := ⟨rfl, rfl⟩
  car := rfl
  pwm := rfl
  dirPins := by rintro (_ | _) <;> exact ⟨rfl, rfl⟩
  pwmPins := by rintro (_ | _) <;> rfl
  dacPin := rfl
  otherPins q hq := by
    have h : ∀ k < 7, q ≠ ⟨0, k⟩ := by
      rintro k hk rfl
      revert k; decide
    simp [booted, State.pin, lookupPin, pinAs, h]
  clocks p := by simp [booted, State.clockOn, fresh, State.resetWith, PinMap.all, Config.vectors, eq_comm]
  table := rfl
  dac := rfl
  period := by decide
  timer := by decide
  dma := rfl
  diag := rfl

/-- 42_gpio R196: a pin uses its function only in mode alternate; in BOOTED the PWM outputs are routed. The answers for
`fresh` and `ready`, whose pins have no mode yet, are the model's choice (log 32). -/
theorem test_usesFunction :
    booted.usesFunction ⟨0, 4⟩ 2 = true ∧ booted.usesFunction ⟨0, 4⟩ 1 = false ∧
    booted.pwmRouted .left = true ∧ booted.pwmRouted .right = true ∧ fresh.pwmRouted .left = false ∧
    afterwards (exec (.gpioAf pinA 7) ready) (fun t => !t.usesFunction ⟨0, 0⟩ 7) ∧
    afterwards (exec (.gpioAf (.motorPwm .left) 7) booted) (fun t => t.usesFunction ⟨0, 4⟩ 7 && !t.pwmRouted .left) ∧
    afterwards (exec (.gpioMode (.motorPwm .left) 1) booted) (fun t => !t.pwmRouted .left) := by decide

/-! ## Statements with hypotheses: states and operands that meet them -/

theorem clocks_ready : DirClocksOn ready := ⟨rfl, rfl, rfl, rfl⟩
theorem clocks_driving (dl : BitVec 10) (l : Dir) (dr : BitVec 10) (r : Dir) : DirClocksOn (driving dl l dr r) :=
  ⟨rfl, rfl, rfl, rfl⟩
theorem no_clocks_fresh : ¬ DirClocksOn fresh := fun h => absurd h.1 (by decide)

/-- A motor between MIN_DUTY and MAX_DUTY in a direction. -/
theorem motorOk_moving {d : BitVec 10} {r : Dir} (hr : r ≠ .stopped) (h : 300 ≤ d.toNat ∧ d.toNat ≤ 1023) :
    MotorOk ⟨d, r⟩ := by
  refine ⟨⟨fun h0 => ?_, fun h0 => absurd h0 hr⟩, fun _ => h⟩
  subst h0
  simp at h

theorem motorOk_resting : MotorOk ⟨0, .stopped⟩ := ⟨by simp, by simp⟩

theorem test_witness_DriveResult :
    (DirClocksOn ready ∧ BothStopped ready.car) ∧
    (DirClocksOn (driving 0 .stopped 300 .forward) ∧ ¬ BothStopped (driving 0 .stopped 300 .forward).car) ∧
    ¬ DirClocksOn fresh :=
  ⟨⟨clocks_ready, rfl, rfl⟩, ⟨clocks_driving _ _ _ _, fun h => absurd h.2 (by decide)⟩, no_clocks_fresh⟩

theorem test_witness_ReverseResult :
    (DirClocksOn ready ∧ BothStopped ready.car) ∧
    (DirClocksOn (driving 300 .backward 0 .stopped) ∧ ¬ BothStopped (driving 300 .backward 0 .stopped).car) ∧
    ¬ DirClocksOn fresh :=
  ⟨⟨clocks_ready, rfl, rfl⟩, ⟨clocks_driving _ _ _ _, fun h => absurd h.1 (by decide)⟩, no_clocks_fresh⟩

/-- The two clauses of a step up meet between 269 and 270, its saturation between 993 and 994. -/
theorem test_witness_AccelerateResult : DirClocksOn (driving 269 .forward 270 .forward) ∧ ¬ DirClocksOn fresh ∧
    (269 + 30 < 300 ∧ 300 ≤ 270 + 30) ∧
    MotorResult .accelerate (driving 269 .forward 270 .forward) ⟨⟨0, .stopped⟩, ⟨300, .forward⟩⟩ .ok
      (false, false) (true, false) :=
  ⟨clocks_driving _ _ _ _, no_clocks_fresh, by decide, by decide +kernel⟩

/-- A run of ACCELERATE from BASE_DUTY. -/
def acceleration : Nat → State
  | 0 => driving 600 .forward 600 .forward
  | k + 1 => msmStep (fun c => ((c.bump stepDuty .left).bump stepDuty .right, .ok)) (acceleration k)

theorem test_witness_AccelerateSaturates :
    DirClocksOn (acceleration 0) ∧ (acceleration 0).car = ⟨⟨600, .forward⟩, ⟨600, .forward⟩⟩ ∧
    ∀ k, exec .accelerate (acceleration k) = .next (acceleration (k + 1)) :=
  ⟨clocks_driving _ _ _ _, rfl, fun _ => rfl⟩

theorem test_witness_BrakeResult : DirClocksOn (driving 329 .forward 330 .backward) ∧ ¬ DirClocksOn fresh :=
  ⟨clocks_driving _ _ _ _, no_clocks_fresh⟩

theorem test_witness_StopResult : DirClocksOn (driving 1023 .forward 300 .backward) ∧ ¬ DirClocksOn fresh :=
  ⟨clocks_driving _ _ _ _, no_clocks_fresh⟩

theorem test_witness_StopIsIdempotent :
    DirClocksOn (driving 600 .forward 600 .forward) ∧ ∃ t, exec .stop (driving 600 .forward 600 .forward) = .next t :=
  ⟨clocks_driving _ _ _ _, _, rfl⟩

theorem test_witness_TurnLeftResult : DirClocksOn (driving 329 .forward 600 .forward) ∧
    DirClocksOn (driving 330 .forward 600 .forward) ∧ ¬ DirClocksOn fresh :=
  ⟨clocks_driving _ _ _ _, clocks_driving _ _ _ _, no_clocks_fresh⟩

theorem test_witness_TurnRightResult : DirClocksOn (driving 600 .forward 329 .forward) ∧
    DirClocksOn (driving 600 .forward 330 .forward) ∧ ¬ DirClocksOn fresh :=
  ⟨clocks_driving _ _ _ _, clocks_driving _ _ _ _, no_clocks_fresh⟩

theorem test_witness_TurnIsBrakeOnOneSide : DirClocksOn (driving 600 .forward 300 .forward) ∧
    ∃ b l r, exec .brake (driving 600 .forward 300 .forward) = .next b ∧
      exec .turnLeft (driving 600 .forward 300 .forward) = .next l ∧
      exec .turnRight (driving 600 .forward 300 .forward) = .next r :=
  ⟨clocks_driving _ _ _ _, _, _, _, rfl, rfl, rfl⟩

theorem test_witness_TurnNeverStartsOrRaises :
    (∀ side, MotorOk ((driving 300 .forward 0 .stopped).car.motor side)) ∧
    ∃ t, exec .turnLeft (driving 300 .forward 0 .stopped) = .next t := by
  refine ⟨?_, _, rfl⟩
  rintro (_ | _)
  · exact motorOk_moving (by decide) (by decide)
  · exact motorOk_resting

theorem test_witness_DirectionPinsFollowCar :
    DirClocksOn ready ∧ DirPinsDistinct ready.cfg.pinMap ∧ (∃ t, exec .drive ready = .next t) ∧
    DirClocksOn { fresh with clk := [0] } ∧ fresh.phase = .boot ∧ ∃ t, exec .bootDone { fresh with clk := [0] } = .next t :=
  ⟨clocks_ready, by unfold DirPinsDistinct; decide, ⟨_, rfl⟩, ⟨rfl, rfl, rfl, rfl⟩, rfl, _, rfl⟩

/-- One physical pin for all four direction pins. -/
theorem test_witness_SharedDirectionPins :
    DirClocksOn { ready with cfg := { Config.vectors with
      pinMap := { Config.vectors.pinMap with leftDirA := ⟨0, 3⟩, leftDirB := ⟨0, 3⟩, rightDirA := ⟨0, 3⟩ } } } ∧
    ∃ t, exec .drive { ready with cfg := { Config.vectors with
      pinMap := { Config.vectors.pinMap with leftDirA := ⟨0, 3⟩, leftDirB := ⟨0, 3⟩, rightDirA := ⟨0, 3⟩ } } } = .next t :=
  ⟨⟨rfl, rfl, rfl, rfl⟩, _, rfl⟩

theorem test_witness_BootDoneResult :
    ready.phase ≠ .boot ∧ (fresh.phase = .boot ∧ ¬ DirClocksOn fresh) ∧
    ({ fresh with clk := [0] } : State).phase = .boot ∧ DirClocksOn { fresh with clk := [0] } :=
  ⟨by decide, ⟨rfl, no_clocks_fresh⟩, rfl, rfl, rfl, rfl, rfl⟩

theorem test_witness_MotorOperationsKeepMotorInvariant :
    (∀ side, MotorOk ((driving 1023 .forward 300 .backward).car.motor side)) ∧
    ∃ t, exec .accelerate (driving 1023 .forward 300 .backward) = .next t := by
  refine ⟨?_, _, rfl⟩
  rintro (_ | _) <;> exact motorOk_moving (by decide) (by decide)

theorem test_witness_StepKeepsReachableDuties :
    (∀ side, MotorOk ((driving 993 .forward 300 .backward).car.motor side) ∧
      ReachableDuty ((driving 993 .forward 300 .backward).car.motor side).duty.toNat) ∧
    ∃ t, step { driving 993 .forward 300 .backward with sched := [.unit], hostUnits := [[0x45]] } = .next t := by
  refine ⟨?_, _, rfl⟩
  rintro (_ | _) <;> exact ⟨motorOk_moving (by decide) (by decide), .inr (by decide)⟩

theorem test_witness_MotorPathIgnoresAudio : ready ≠ streaming 0 9 0 0 5 ∧ ready.cfg = (streaming 0 9 0 0 5).cfg ∧
    ready.car = (streaming 0 9 0 0 5).car ∧ ready.pwm = (streaming 0 9 0 0 5).pwm ∧
    ready.gpio = (streaming 0 9 0 0 5).gpio ∧ ready.clk = (streaming 0 9 0 0 5).clk ∧
    (∃ t, exec .drive ready = .next t) ∧ ∃ t, exec .drive (streaming 0 9 0 0 5) = .next t :=
  ⟨by decide, rfl, rfl, rfl, rfl, rfl, ⟨_, rfl⟩, _, rfl⟩

theorem test_witness_HonkResult : ready.lut = none ∧
    ({ ready with lut := some countingTable } : State).lut ≠ none ∧
    ({ ready with lut := some countingTable } : State).dma.state = .idle ∧
    (streaming 0 9 0 0 5).lut ≠ none ∧ (streaming 0 9 0 0 5).dma.state = .armed :=
  ⟨rfl, by decide, rfl, by decide, rfl⟩

theorem test_witness_HonkEndResult :
    ({ ready with phase := .honkBusy, sched := [.honkEnd] } : State).fault = none ∧
    ({ ready with phase := .honkBusy, sched := [.honkEnd] } : State).refusal = none ∧
    ({ ready with phase := .honkBusy, sched := [.honkEnd] } : State).phase = .honkBusy ∧
    ({ ready with sched := [.honkEnd] } : State).phase ≠ .honkBusy := by decide

/-- From DMA ARMED and from DMA IDLE with a running timer, and from a timer that was never configured. -/
theorem test_witness_HonkLeavesMotorsAlone :
    ((streaming 0 0 0 0 99).lut = some countingTable ∧
      ((streaming 0 0 0 0 99).tim.psc ≠ none ∧ (streaming 0 0 0 0 99).tim.arr ≠ none) ∧
      ∃ t, exec .honk (streaming 0 0 0 0 99) = .next t ∧ overflowCount 0 t = 0 ∧ overflowCount 1 t ≠ 0) ∧
    (({ streaming 0 0 0 0 0 with dma := ⟨.idle, none⟩ } : State).lut = some countingTable ∧
      ∃ t, exec .honk { streaming 0 0 0 0 0 with dma := ⟨.idle, none⟩ } = .next t ∧
        overflowCount 0 t = 0 ∧ overflowCount 1 t ≠ 0) ∧
    ({ ready with lut := some countingTable } : State).lut = some countingTable ∧ ready.tim.psc = none ∧
    ∃ t, exec .honk { ready with lut := some countingTable } = .next t ∧ overflowCount 0 t = 0 :=
  ⟨⟨rfl, by decide, _, rfl, rfl, by decide⟩, ⟨rfl, _, rfl, rfl, by decide⟩, rfl, rfl, _, rfl, rfl⟩

/-- The numbers of the pin names of the tests. -/
theorem test_witness_pinNumbers : decodePin ready.cfg 0 = .ok pinA ∧ decodePin ready.cfg 6 = .ok .dacOut ∧
    decodePin ready.cfg 5 = .ok (.motorPwm .right) := by decide

theorem test_witness_GpioModeResult : ready.cfg.pinMap.lookup pinA = some ⟨0, 0⟩ ∧ decodePin ready.cfg 0 = .ok pinA ∧
    3 ≤ 3 ∧ 4 ≤ 4 := by decide

theorem test_witness_GpioPullResult : ready.cfg.pinMap.lookup pinA = some ⟨0, 0⟩ ∧ ready.clockOn 0 = true ∧
    fresh.cfg.pinMap.lookup pinA = some ⟨0, 0⟩ ∧ fresh.clockOn 0 = false ∧ 2 ≤ 2 ∧ 3 ≤ 3 := by decide

theorem test_witness_GpioOtypeResult : ready.cfg.pinMap.lookup pinA = some ⟨0, 0⟩ ∧ ready.clockOn 0 = true ∧
    fresh.cfg.pinMap.lookup pinA = some ⟨0, 0⟩ ∧ fresh.clockOn 0 = false ∧ 1 ≤ 1 ∧ 2 ≤ 2 := by decide

theorem test_witness_GpioSpeedResult : ready.cfg.pinMap.lookup pinA = some ⟨0, 0⟩ ∧ ready.clockOn 0 = true ∧
    fresh.cfg.pinMap.lookup pinA = some ⟨0, 0⟩ ∧ fresh.clockOn 0 = false ∧ 3 ≤ 3 ∧ 4 ≤ 4 := by decide

theorem test_witness_GpioAfResult : ready.cfg.pinMap.lookup pinA = some ⟨0, 0⟩ ∧ 15 ≤ 15 ∧ 16 ≤ 16 := by decide

theorem test_witness_GpioWriteResult : ready.cfg.pinMap.lookup .dacOut = some ⟨0, 6⟩ ∧ ready.clockOn 0 = true ∧
    fresh.cfg.pinMap.lookup .dacOut = some ⟨0, 6⟩ ∧ fresh.clockOn 0 = false ∧ 2 ≤ 2 := by decide

theorem test_witness_GpioReadResult : ready.cfg.pinMap.lookup (.motorPwm .right) = some ⟨0, 5⟩ ∧
    ready.clockOn 0 = true ∧ fresh.cfg.pinMap.lookup (.motorPwm .right) = some ⟨0, 5⟩ ∧ fresh.clockOn 0 = false := by decide

theorem test_witness_UnknownPinRefused : ready.cfg.pinMap.others.length ≤ 0 ∧
    (0x07 : Byte) ∈ ([0x01, 0x02, 0x03, 0x04, 0x05, 0x06, 0x07] : List Byte) := by decide

theorem test_witness_ConfigurationIsIdempotent : ∃ t, exec (.gpioPull pinA 2) ready = .next t ∧
    t.reply = some ⟨.ok, none⟩ := ⟨_, rfl, by decide⟩

/-- An odd FULL_SCALE has two ties, an even one has none. -/
theorem test_witness_LutInitResult : fresh.cfg.wf = true ∧ fresh.lut = none ∧ fresh.cfg.fullScale % 2 = 1 ∧
    ({ Config.vectors with fullScale := 4096, dacBits := 13 } : Config).wf = true ∧ 4096 % 2 = 0 ∧
    (streaming 0 9 0 0 0).lut ≠ none := by decide

theorem test_witness_LutSymmetry : fresh.cfg.wf = true ∧ fresh.lut = none ∧
    (∃ t T, exec .lutInit fresh = .next t ∧ t.lut = some T) ∧
    (1 ≤ ((1 : Fin tableLen) : ℕ) ∧ ((49 : Fin tableLen) : ℕ) = 50 - 1 ∧ ((99 : Fin tableLen) : ℕ) = 100 - 1) ∧
    ((49 : Fin tableLen) : ℕ) ≤ 49 ∧ ((51 : Fin tableLen) : ℕ) = 100 - 49 :=
  ⟨by decide, rfl, ⟨_, _, rfl, rfl⟩, by decide, by decide, by decide⟩

theorem test_witness_TimClockSetResult : (65535 < 2 ^ ready.cfg.timerWidth ∧ 1 ≤ 1 ∧ 1 < 2 ^ ready.cfg.timerWidth) ∧
    ¬ (65536 < 2 ^ ready.cfg.timerWidth) ∧ ¬ (1 ≤ 0) := by decide

theorem test_witness_TimStartResult : (fresh.tim.psc = none ∨ fresh.tim.arr = none) ∧
    (streaming 0 9 0 0 0).tim.psc ≠ none ∧ (streaming 0 9 0 0 0).tim.arr ≠ none := by decide

theorem test_witness_DmaArmResult : ready.lut = none ∧
    ((streaming 0 9 0 0 5).lut ≠ none ∧ (streaming 0 9 0 0 5).dma.state = .armed) ∧
    ({ ready with lut := some countingTable } : State).lut ≠ none ∧
    ({ ready with lut := some countingTable } : State).dma.state = .idle := by decide

/-- Each clause of the tick: not running, below the prescaler, below the reload, overflow IDLE, overflow ARMED. -/
theorem test_witness_TickResult :
    ready.fault = none ∧ ready.refusal = none ∧ ready.tim.en = false ∧
    (streaming 1 2 0 2 0).tim.pcnt < 1 ∧ (1 ≤ (streaming 1 2 1 1 0).tim.pcnt ∧ (streaming 1 2 1 1 0).tim.cnt < 2) ∧
    (1 ≤ (streaming 1 2 1 2 0).tim.pcnt ∧ 2 ≤ (streaming 1 2 1 2 0).tim.cnt) ∧
    ({ streaming 1 2 1 2 0 with dma := ⟨.idle, none⟩ } : State).dma.state = .idle ∧
    (streaming 1 2 1 2 99).dma = ⟨.armed, some 99⟩ ∧ (streaming 1 2 1 2 99).lut = some countingTable ∧
    ({ streaming 1 2 1 2 99 with sched := [.tick] } : State).sched = [.tick] := by decide

theorem test_witness_OverflowsArePeriodic : (streaming 1 2 0 0 0).tim = ⟨true, some 1, some 2, 0, 0⟩ ∧
    (streaming 1 2 0 0 0).lut ≠ none := by decide

theorem test_witness_ClockSetRestartsPeriod : (streaming 0 9 0 5 37).tim.en = true ∧ (streaming 0 9 0 5 37).lut ≠ none ∧
    ∃ t, exec (.timClockSet 1 2) (streaming 0 9 0 5 37) = .next t ∧ t.reply = some ⟨.ok, none⟩ :=
  ⟨rfl, by decide, _, rfl, by decide⟩

theorem test_witness_StreamLaw : (streaming 0 0 0 0 98).tim.psc = some 0 ∧ (streaming 0 0 0 0 98).tim.arr = some 0 ∧
    (streaming 0 0 0 0 98).lut = some countingTable ∧ (streaming 0 0 0 0 98).dma = ⟨.armed, some 98⟩ ∧
    overflowCount 0 (streaming 0 0 0 0 98) = 0 ∧ overflowCount 1 (streaming 0 0 0 0 98) = 0 + 1 := by decide

theorem test_witness_AnalogOutputIsDacData :
    ({ ready with dac := ⟨true, some 5⟩ } : State).dac = ⟨true, some 5⟩ ∧ fresh.dac.en = false ∧
    ({ ready with dac := ⟨true, none⟩ } : State).dac.data = none := by decide

theorem test_witness_StepTakesWork :
    ({ ready with fault := some .lutUninit } : State).fault ≠ none ∧
    ({ ready with refusal := some .badPin } : State).refusal ≠ none ∧
    (ready.fault = none ∧ ready.refusal = none ∧ ready.phase = .idle) ∧ fresh.phase ≠ .idle ∧
    decodeCtrl ready.cfg ⟨0x14, 0, 0, 0⟩ = .ok .dmaArm ∧ fresh.phase ≠ .honkBusy ∧
    ({ ready with phase := .honkBusy } : State).phase = .honkBusy := by decide

theorem test_witness_StepRefusesRecord : ready.fault = none ∧ ready.refusal = none ∧ ready.phase ≠ .honkBusy ∧
    decodeCtrl ready.cfg ⟨0x21, 0, 0, 0⟩ = .error .badSelector ∧ decodeCtrl ready.cfg ⟨0x01, 7, 0, 0⟩ = .error .badPin ∧
    decodeCtrl ready.cfg ⟨0x06, 6, 0, 2⟩ = .error .badWriteValue := by decide

theorem test_witness_StopIsFinal : ({ ready with fault := some .gpioClockOff } : State).fault = some .gpioClockOff ∧
    ({ ready with refusal := some .timerRange } : State).fault = none ∧
    ({ ready with refusal := some .timerRange } : State).refusal = some .timerRange := by decide

/-- A state whose next step runs LUT_INIT. -/
theorem test_witness_StepKeepsInvariant :
    MachineInv { fresh with sched := [.ctrl], ctrlOps := [⟨0x10, 0, 0, 0⟩] } ∧
    ∃ t, step { fresh with sched := [.ctrl], ctrlOps := [⟨0x10, 0, 0, 0⟩] } = .next t := by
  refine ⟨?_, _, rfl⟩
  constructor
  · decide
  · rintro (_ | _) <;> exact motorOk_resting
  · exact fun _ => ⟨rfl, rfl⟩
  · exact fun h => absurd rfl h
  · exact fun _ h => absurd h (by simp [fresh, State.resetWith])
  · exact ⟨rfl, rfl, rfl⟩
  · exact fun h => absurd h (by decide)
  · exact fun h => absurd h (by decide)
  · exact fun _ h => absurd h (by simp [fresh, State.resetWith])
  · rfl
  · rfl
  · exact fun q => by simp [fresh, State.resetWith, State.pin, lookupPin, PinFields.fresh]

theorem test_witness_InvariantHoldsAtReset : Config.vectors.wf = true := by decide

theorem test_witness_WritersOfComponents :
    (∃ t, step { streaming 0 9 0 0 5 with sched := [.tick] } = .next t) ∧
    (∃ t, step { streaming 0 9 0 0 5 with sched := [.unit] } = .next t) ∧ ∃ t, exec .timStart ready = .next t :=
  ⟨⟨_, rfl⟩, ⟨_, rfl⟩, _, rfl⟩

theorem test_witness_NothingTakenBack : (∃ t, step { streaming 0 9 0 0 5 with sched := [.tick] } = .next t) ∧
    (streaming 0 9 0 0 5).lut = some countingTable ∧ (streaming 0 9 0 0 5).tim.en = true ∧
    (streaming 0 9 0 0 5).clockOn 0 = true ∧ ({ ready with dac := ⟨true, none⟩ } : State).dac.en = true :=
  ⟨⟨_, rfl⟩, rfl, rfl, by decide, rfl⟩

/-! ### Runs -/

/-- A running DMA in a honk, and a unit that waits behind the honk. -/
def honking : State := { ready with
  pwm := ⟨some 0, some 0⟩, lut := some (lutTable Config.vectors), dma := ⟨.armed, some 3⟩, phase := .honkBusy,
  hostUnits := [[0x42]] }

/-- A run: the honk ends, the unit is taken, nothing more happens. -/
def honkRun : Nat → State
  | 0 => honking
  | 1 => honkEnd honking
  | _ + 2 => { honkEnd honking with hostUnits := [], diag := [.unrecognizedCommand], reply := none }

def honkEvents : Nat → Event
  | 0 => .move .honkEnd
  | 1 => .move .unit
  | _ + 2 => .nothing

theorem test_honkRun_fair : WeaklyFair honkRun honkEvents where
  run
    | 0 => ⟨rfl, rfl⟩
    | 1 => ⟨rfl, rfl⟩
    | _ + 2 => rfl
  honkEnd k h := (Bool.false_ne_true (h (k + 2) (by omega))).elim
  tick k h := (Bool.false_ne_true (h (k + 2) (by omega))).elim
  unit k h := (Bool.false_ne_true (h (k + 2) (by omega))).elim

/-- A timer that overflows every second tick. -/
def tickRun (n : Nat) : State := { ready with tim := ⟨true, some 0, some 1, 0, n % 2⟩ }

theorem test_tickRun_fair : WeaklyFair tickRun (fun _ => .move .tick) where
  run n := by
    refine ⟨rfl, ?_⟩
    rcases Nat.mod_two_eq_zero_or_one n with h | h
    · have h' : (n + 1) % 2 = 1 := by omega
      simp only [tickRun, h, h']; rfl
    · have h' : (n + 1) % 2 = 0 := by omega
      simp only [tickRun, h, h']; rfl
  honkEnd k h := absurd (h k le_rfl) (by simp [Move.enabled, tickRun, ready])
  tick k _ := ⟨k, le_rfl, rfl⟩
  unit k h := absurd (h k le_rfl) (by simp [Move.enabled, tickRun, ready, fresh, State.resetWith])

theorem test_witness_DisabledMoveChangesNothing :
    ({ ready with sched := [.honkEnd] } : State).running = true ∧ Move.honkEnd.enabled ready = false ∧
    Move.tick.enabled ready = false ∧ Move.unit.enabled ready = false ∧
    Move.ctrl.enabled { ready with phase := .honkBusy, ctrlOps := [⟨0x15, 0, 0, 0⟩] } = false := by decide

theorem test_witness_FairRunEndsHonk : WeaklyFair honkRun honkEvents ∧ MachineInv (honkRun 0) ∧
    (honkRun 0).running = true ∧ (honkRun 0).phase = .honkBusy := by
  refine ⟨test_honkRun_fair, ?_, rfl, rfl⟩
  constructor
  · decide
  · rintro (_ | _) <;> exact motorOk_resting
  · exact fun h => absurd h (by decide)
  · rintro - (_ | _) <;> rfl
  · exact fun t h => (Option.some.inj h).symm
  · exact ⟨rfl, rfl, rfl⟩
  · exact fun _ => ⟨rfl, rfl⟩
  · exact fun _ => rfl
  · exact fun _ h => absurd h (by simp [honkRun, honking, ready, fresh, State.resetWith])
  · rfl
  · rfl
  · exact fun q => by simp [honkRun, honking, ready, fresh, State.resetWith, State.pin, lookupPin, PinFields.fresh]

theorem test_witness_FairRunTicksForever : WeaklyFair tickRun (fun _ => .move .tick) ∧
    (∀ j, 0 ≤ j → (tickRun j).running = true) ∧ (tickRun 0).tim.en = true :=
  ⟨test_tickRun_fair, fun _ _ => rfl, rfl⟩

theorem test_witness_FairRunTakesUnits : WeaklyFair honkRun honkEvents ∧
    (∀ j, 0 ≤ j → (honkRun j).running = true) ∧ (honkRun 0).phase ≠ .boot ∧ (honkRun 0).hostUnits ≠ [] :=
  ⟨test_honkRun_fair, fun j _ => by rcases j with _ | _ | j <;> rfl, by decide, by decide⟩

theorem test_witness_SelectorMap : decodePin Config.vectors 6 = .ok .dacOut ∧
    (0x08 : Byte) ∉ ([0x01, 0x02, 0x03, 0x04, 0x05, 0x06, 0x07, 0x10, 0x11, 0x12, 0x13, 0x14, 0x15, 0x20] : List Byte) := by
  decide

theorem test_witness_DecodeEncodeAgree : (Instr.timClockSet 65536 0).wellFormed Config.vectors = true ∧
    (Instr.unrecognized [0x57, 0x45]).wellFormed Config.vectors = true := by decide

theorem test_witness_EncodeDecodeAgree :
    decodeCtrl Config.vectors ⟨0x06, 6, 5, 1⟩ = .ok (.gpioWrite .dacOut true) := by decide

theorem test_witness_FramingSplitsLines :
    (∀ u ∈ ([[0x57], []] : List (List Byte)), (0x0A : Byte) ∉ u) ∧ (0x0A : Byte) ∉ ([0x45] : List Byte) := by decide

end Sys2Proof.Tests
end

section
/-! SUPPORT. The phase and the HOST's units along a run, and the third item of decision D1 (00_scope R10): in a weakly
fair run that nothing stops, the oldest unit of the HOST is taken. -/

namespace Sys2Proof.Machine

/-! ## Operations -/

/-- No CTRL record is a HONK (30_encoding R79). -/
theorem decodeCtrl_ne_honk {c : Config} {r : CtrlRecord} {i : Instr} (h : decodeCtrl c r = .ok i) : i ≠ .honk := by
  rintro rfl
  cases decodeCtrl_ok h

/-- HONK begins a honk, or faults in the phase it was taken in (41_audio R172). -/
theorem execHonk_phase {s t : State} (h : exec .honk s = .next t) : t.phase = s.phase ∨ t.phase = .honkBusy := by
  obtain rfl := Host.Outcome.next.inj h
  cases armed s with
  | error k => exact .inl rfl
  | ok u => exact .inr rfl

/-- BOOT_DONE after boot is refused, and the phase stays (40_motor R120). -/
theorem execBootDone_phase_of_booted {s t : State} (h : exec .bootDone s = .next t) (hb : s.phase ≠ .boot) :
    t.phase = s.phase := by
  obtain rfl := Host.Outcome.next.inj h
  rw [if_neg hb, refuse_phase]

/-- After boot, only HONK moves the phase (10_state R26). -/
theorem exec_phase_of_booted {i : Instr} {s t : State} (h : exec i s = .next t) (hb : s.phase ≠ .boot) :
    t.phase = s.phase ∨ (i = .honk ∧ t.phase = .honkBusy) := by
  by_cases hh : i = .honk
  · subst hh
    exact (execHonk_phase h).imp_right fun ht => ⟨rfl, ht⟩
  by_cases hd : i = .bootDone
  · subst hd
    exact .inl (execBootDone_phase_of_booted h hb)
  · exact .inl (exec_phase h hh hd)

theorem tick_hostUnits (s : State) : (tick s).hostUnits = s.hostUnits := by
  rcases tick_cases s with ⟨p, c, dac, dma, d, -, -, h⟩ | ⟨k, h⟩ <;> rw [h]
  rfl

/-! ## Events -/

/-- After boot, an event keeps the phase, takes a unit that begins a honk, or ends a honk. -/
theorem leads_phase_of_booted {e : Event} {s t : State} (h : e.Leads s t) (hb : s.phase ≠ .boot) :
    t.phase = s.phase ∨ (e = .move .unit ∧ t.phase = .honkBusy) ∨ (e = .move .honkEnd ∧ t.phase = .idle) := by
  cases e with
  | move m =>
    rcases leads_cases h with ⟨rfl, -, u, us, -, hx⟩ | ⟨-, -, r, rs, -, ⟨i, hi, hx⟩ | ⟨e, rfl⟩⟩ | ⟨rfl, -, rfl⟩ |
      ⟨-, -, rfl⟩
    · exact (exec_phase_of_booted hx hb).imp_right fun ht => .inl ⟨rfl, ht.2⟩
    · exact (exec_phase_of_booted hx hb).imp_right fun ht => absurd ht.1 (decodeCtrl_ne_honk hi)
    · exact .inl rfl
    · exact .inr (.inr ⟨rfl, rfl⟩)
    · exact .inl (tick_keeps _).phase
  | sends b => obtain ⟨-, rfl⟩ := h; exact .inl rfl
  | issues r => obtain ⟨-, rfl⟩ := h; exact .inl rfl
  | nothing => exact .inl (h ▸ rfl)

/-- The honk end of a run is the end step of 41_audio R173. -/
theorem leads_honkEnd {s t : State} (h : (Event.move .honkEnd).Leads s t) : t = honkEnd { s with sched := [] } := by
  rcases leads_cases h with ⟨hm, -⟩ | ⟨hm, -⟩ | ⟨-, -, ht⟩ | ⟨hm, -⟩
  · cases hm
  · cases hm
  · exact ht
  · cases hm

/-- No event of a run returns to phase BOOT. -/
theorem leads_booted {e : Event} {s t : State} (h : e.Leads s t) (hb : s.phase ≠ .boot) : t.phase ≠ .boot := by
  rcases leads_phase_of_booted h hb with ht | ⟨-, ht⟩ | ⟨-, ht⟩ <;> simp [ht, hb]

/-- Only taking a unit leaves phase IDLE. -/
theorem leads_idle {e : Event} {s t : State} (h : e.Leads s t) (he : e ≠ .move .unit) (hi : s.phase = .idle) :
    t.phase = .idle := by
  rcases leads_phase_of_booted h (by simp [hi]) with ht | ⟨hu, -⟩ | ⟨-, ht⟩
  · exact ht.trans hi
  · exact absurd hu he
  · exact ht

/-- Until a unit is taken, the HOST's units only grow, behind those it has (60_exceptions R246). -/
theorem leads_hostUnits_prefix {e : Event} {s t : State} (h : e.Leads s t) (he : e ≠ .move .unit) :
    s.hostUnits <+: t.hostUnits := by
  cases e with
  | move m =>
    rcases leads_cases h with ⟨rfl, -⟩ | ⟨-, -, r, rs, -, ⟨i, -, hx⟩ | ⟨e, rfl⟩⟩ | ⟨-, -, rfl⟩ | ⟨-, -, rfl⟩
    · exact absurd rfl he
    · rw [(exec_keeps hx).hostUnits]
    · exact List.prefix_rfl
    · exact List.prefix_rfl
    · rw [tick_hostUnits]
  | sends b => obtain ⟨-, rfl⟩ := h; exact List.prefix_append _ _
  | issues r => obtain ⟨-, rfl⟩ := h; exact List.prefix_rfl
  | nothing => exact h ▸ List.prefix_rfl

/-! ## Runs -/

section
variable {states : Nat → State} {events : Nat → Event} {k n : Nat}

/-- No unit is taken from point `k` up to point `n` of a run. -/
def NoUnitTaken (events : Nat → Event) (k n : Nat) : Prop := ∀ j, k ≤ j → j < n → events j ≠ .move .unit

/-- What every event but the taking of a unit keeps holds until a unit is taken. -/
theorem run_keeps {P : State → Prop} (hrun : IsRun states events)
    (hP : ∀ (e : Event) (s t : State), e.Leads s t → e ≠ .move .unit → P s → P t) (hk : P (states k)) (hkn : k ≤ n)
    (hno : NoUnitTaken events k n) : P (states n) := by
  induction n, hkn using Nat.le_induction with
  | base => exact hk
  | succ n hkn ih =>
    exact hP _ _ _ (hrun n) (hno n hkn n.lt_succ_self) (ih fun j hj hjn => hno j hj (hjn.trans n.lt_succ_self))

theorem run_hostUnits_prefix (hrun : IsRun states events) (hkn : k ≤ n) (hno : NoUnitTaken events k n) :
    (states k).hostUnits <+: (states n).hostUnits :=
  run_keeps (P := fun s => (states k).hostUnits <+: s.hostUnits) hrun
    (fun _ _ _ h he hs => hs.trans (leads_hostUnits_prefix h he)) List.prefix_rfl hkn hno

theorem run_idle (hrun : IsRun states events) (hk : (states k).phase = .idle) (hkn : k ≤ n)
    (hno : NoUnitTaken events k n) : (states n).phase = .idle :=
  run_keeps (P := fun s => s.phase = .idle) hrun (fun _ _ _ => leads_idle) hk hkn hno

theorem run_booted (hrun : IsRun states events) (hk : (states k).phase ≠ .boot) (hkn : k ≤ n) :
    (states n).phase ≠ .boot := by
  induction n, hkn using Nat.le_induction with
  | base => exact hk
  | succ n _ ih => exact leads_booted (hrun n) ih

/-- A weakly fair run that nothing stops after boot comes to phase IDLE: a honk that lasted would stay enabled to end. -/
theorem fairRun_comes_to_idle (hf : WeaklyFair states events) (hr : ∀ j, k ≤ j → (states j).running = true)
    (hb : (states k).phase ≠ .boot) : ∃ j, k ≤ j ∧ (states j).phase = .idle := by
  by_contra hno
  have hbusy : ∀ j, k ≤ j → (states j).phase = .honkBusy := fun j hj => by
    cases hp : (states j).phase with
    | boot => exact absurd hp (run_booted hf.run hb hj)
    | idle => exact absurd ⟨j, hj, hp⟩ hno
    | honkBusy => rfl
  obtain ⟨j, hj, he⟩ := hf.honkEnd k fun j hj => by simp [Move.enabled, hr j hj, hbusy j hj]
  have hend := hf.run j
  rw [he] at hend
  exact hno ⟨j + 1, by omega, by rw [leads_honkEnd hend, honkEnd_phase]⟩

/-- A weakly fair run that nothing stops takes a unit while the HOST has one: from phase IDLE on it stays enabled. -/
theorem fairRun_takes_unit (hf : WeaklyFair states events) (hr : ∀ j, k ≤ j → (states j).running = true)
    (hb : (states k).phase ≠ .boot) (hu : (states k).hostUnits ≠ []) : ∃ j, k ≤ j ∧ events j = .move .unit := by
  by_contra hno
  have none_taken : ∀ m n, k ≤ m → NoUnitTaken events m n := fun m n hm j hj _ he => hno ⟨j, hm.trans hj, he⟩
  obtain ⟨i, hi, hidle⟩ := fairRun_comes_to_idle hf hr hb
  obtain ⟨j, hj, he⟩ := hf.unit i fun j hj => by
    have hphase : (states j).phase = .idle := run_idle hf.run hidle hj (none_taken i j hi)
    have hunits : (states j).hostUnits ≠ [] :=
      (run_hostUnits_prefix hf.run (hi.trans hj) (none_taken k j le_rfl)).ne_nil hu
    simp [Move.enabled, acceptsUnit, hr j (hi.trans hj), hphase, hunits]
  exact hno ⟨j, hi.trans hj, he⟩

end

/-- Settles O54: a unit is taken, and the first taken is the oldest, which stays in front until then. -/
theorem fairRunTakesUnits : Obligations.FairRunTakesUnits := by
  unfold Obligations.FairRunTakesUnits
  intro states events k hf hr hb hu
  have htaken := fairRun_takes_unit hf hr hb hu
  obtain ⟨hk, he⟩ := Nat.find_spec htaken
  have hno : NoUnitTaken events k (Nat.find htaken) := fun j hj hlt he => Nat.find_min htaken hlt ⟨hj, he⟩
  obtain ⟨sent, hsent⟩ := run_hostUnits_prefix hf.run hk hno
  exact ⟨Nat.find htaken, hk, he, by rw [← hsent, List.head?_append_of_ne_nil _ hu]⟩

end Sys2Proof.Machine
end

section
/-! SUPPORT. What no step takes back (10_state R30, R31, R34, R37, R39, R40): operations by `ExecKeeps`, ticks by
`TickKeeps`, and the schedule and the environment's data have no part in it. -/

namespace Sys2Proof.Machine

section
variable {s t : State}

/-- From `s` to `t` the parameters stay, and the table, the enables, the clocks and the trace are not taken back. It says
nothing of the schedule and of the units and records that wait, so taking one of these is no change to it. -/
def TakesNothingBack (s t : State) : Prop :=
  t.cfg = s.cfg ∧ (∀ T, s.lut = some T → t.lut = some T) ∧ (s.tim.en = true → t.tim.en = true) ∧
    (s.dac.en = true → t.dac.en = true) ∧ (∀ p, s.clockOn p = true → t.clockOn p = true) ∧ ∃ ds, t.diag = s.diag ++ ds

theorem ExecKeeps.takesNothingBack (h : ExecKeeps s t) : TakesNothingBack s t :=
  ⟨h.cfg, h.lut, h.timEn, h.dacEn, h.clock, h.diag⟩

theorem TickKeeps.takesNothingBack (h : TickKeeps s t) : TakesNothingBack s t :=
  ⟨h.cfg, fun _ hT => h.lut.trans hT, fun hen => h.timEn.trans hen, fun hen => h.dacEn.trans hen,
    fun p hp => by rwa [State.clockOn, h.clk], [], by rw [h.diag, List.append_nil]⟩

/-- The honk end step moves the DMA state, the phase and the reply alone (41_audio R173). -/
theorem honkEnd_keeps (s : State) : ExecKeeps s (honkEnd s) := execKeeps_of_eq rfl

/-- A refusal sets the mark and the reply alone (60_exceptions R227). -/
theorem refusedFor_keeps (r : Refusal) (s : State) : ExecKeeps s (refusedFor r s) := execKeeps_of_eq rfl

theorem runMove_takesNothingBack {m : Move} (h : runMove m s = .next t) : TakesNothingBack s t := by
  rcases runMove_cases h with rfl | ⟨-, -, u, us, -, hx⟩ | ⟨-, -, r, rs, i, -, -, hx⟩ | ⟨-, -, r, rs, e, -, -, rfl⟩ |
    ⟨-, -, rfl⟩ | ⟨-, -, rfl⟩
  · exact (execKeeps_refl t).takesNothingBack
  · exact (exec_keeps hx).takesNothingBack
  · exact (exec_keeps hx).takesNothingBack
  · exact (refusedFor_keeps _ { s with ctrlOps := rs }).takesNothingBack
  · exact (honkEnd_keeps s).takesNothingBack
  · exact (tick_keeps s).takesNothingBack

theorem step_takesNothingBack (h : step s = .next t) : TakesNothingBack s t := by
  obtain ⟨-, -, ⟨-, rfl⟩ | ⟨m, ms, -, hm⟩⟩ := step_cases h
  · exact (execKeeps_refl t).takesNothingBack
  · exact runMove_takesNothingBack (s := { s with sched := ms }) hm

end

/-- Settles O50: by the moves, an operation, a refused record, the honk end step or a tick. -/
theorem nothingTakenBack : Obligations.NothingTakenBack := by
  unfold Obligations.NothingTakenBack
  exact fun _ _ => step_takesNothingBack

end Sys2Proof.Machine
end

section
/-! SUPPORT. A scheduled move that is not enabled (20_memory R60; log 5). -/

namespace Sys2Proof.Machine

/-- Settles O51: a move that is not enabled is idle, and no enabling condition reads the schedule. -/
theorem disabledMoveChangesNothing : Obligations.DisabledMoveChangesNothing := by
  unfold Obligations.DisabledMoveChangesNothing
  intro s m ms hr hs hm
  obtain ⟨hf, hx⟩ := running_iff.1 hr
  rw [step_of_move hf hx hs]
  exact runMove_disabled (s := { s with sched := ms }) hr hm

end Sys2Proof.Machine
end

section
/-! SUPPORT. Which steps write each component (20_memory R61): the fields an operation can write, said once for each
operation, and what the TIMER's move and the other moves write. -/

namespace Sys2Proof.Machine

section
variable {s t : State} {i : Instr}

/-! ## What an operation can write -/

/-- From `s` to `t` only the pins, the port clocks, the trace and the records of the step change. -/
def GpioFrame (s t : State) : Prop :=
  t = { s with
    gpio := t.gpio, clk := t.clk, diag := t.diag, fault := t.fault, refusal := t.refusal, draws := t.draws,
    reply := t.reply }

/-- From `s` to `t` only the car, its reflection and the records of the step change. -/
def MotorFrame (s t : State) : Prop :=
  t = { s with car := t.car, pwm := t.pwm, gpio := t.gpio, fault := t.fault, reply := t.reply }

/-- The fields an operation can write; all others are as the operation found them. -/
def ExecFrame (s t : State) : Instr → Prop
  | .drive | .accelerate | .brake | .stop | .turnLeft | .turnRight | .reverse => MotorFrame s t
  | .honk =>
    t = { s with phase := t.phase, dma := t.dma, draws := t.draws, fault := t.fault, reply := t.reply }
  | .unrecognized _ => t = { s with diag := t.diag, reply := t.reply }
  | .gpioMode .. | .gpioPull .. | .gpioOtype .. | .gpioSpeed .. | .gpioAf .. | .gpioWrite .. | .gpioRead _ =>
    GpioFrame s t
  | .lutInit => t = { s with lut := t.lut, refusal := t.refusal, reply := t.reply }
  | .dacEnable => t = { s with dac := { s.dac with en := t.dac.en }, reply := t.reply }
  | .timClockSet .. => t = { s with tim := { t.tim with en := s.tim.en }, refusal := t.refusal, reply := t.reply }
  | .timStart => t = { s with tim := { s.tim with en := t.tim.en }, fault := t.fault, reply := t.reply }
  | .dmaArm => t = { s with dma := t.dma, draws := t.draws, fault := t.fault, reply := t.reply }
  | .dmaDisarm => t = { s with dma := { s.dma with state := t.dma.state }, reply := t.reply }
  | .bootDone =>
    t = { s with
      pwm := t.pwm, phase := t.phase, gpio := t.gpio, fault := t.fault, refusal := t.refusal, reply := t.reply }

theorem msmStep_frame (sem : Car → Car × Status) (s : State) : MotorFrame s (msmStep sem s) := by
  rcases msmStep_cases sem s with ⟨-, h⟩ | ⟨-, h⟩
  · rw [MotorFrame, h.frame]
  · rw [h]; rfl

theorem onPin_frame {pin : PinName} {act : PhysPin → Except Fault State}
    (h : ∀ q t, act q = .ok t → GpioFrame s t) : GpioFrame s (onPin pin s act) := by
  unfold onPin
  split
  · rfl
  · next q _ =>
    cases hq : act q with
    | ok t => exact h q t hq
    | error k => rfl

theorem gpioConfig_frame {pin : PinName} {valid : Bool} {write : PhysPin → Except Fault State}
    (h : ∀ q t, write q = .ok t → GpioFrame s t) : GpioFrame s (gpioConfig pin valid s write) := by
  refine onPin_frame fun q t ht => ?_
  cases valid with
  | true => exact h q t ht
  | false => exact (Except.ok.inj ht) ▸ rfl

theorem writeEnabling_frame {q : PhysPin} {f : PinFields → PinFields} (h : writeEnabling q f s = .ok t) :
    GpioFrame s t := (Except.ok.inj h) ▸ rfl

theorem writeClocked_frame {q : PhysPin} {f : PinFields → PinFields} (h : writeClocked q f s = .ok t) :
    GpioFrame s t := by
  unfold writeClocked at h
  split_ifs at h
  exact (Except.ok.inj h) ▸ rfl

/-- Arming writes the DMA registers and counts the draw (41_audio R164). -/
theorem armed_frame (h : armed s = .ok t) : t = { s with dma := t.dma, draws := t.draws } := by
  rcases (armed_cases h).2 with ⟨-, rfl⟩ | ⟨-, rfl⟩ <;> rfl

theorem exec_frame (h : exec i s = .next t) : ExecFrame s t i := by
  cases i with
  | drive | accelerate | brake | stop | turnLeft | turnRight | reverse =>
    obtain rfl := Host.Outcome.next.inj h; exact msmStep_frame _ s
  | gpioMode | gpioAf =>
    obtain rfl := Host.Outcome.next.inj h; exact gpioConfig_frame fun _ _ => writeEnabling_frame
  | gpioPull | gpioOtype | gpioSpeed =>
    obtain rfl := Host.Outcome.next.inj h; exact gpioConfig_frame fun _ _ => writeClocked_frame
  | gpioWrite p l =>
    obtain rfl := Host.Outcome.next.inj h
    refine onPin_frame fun q t ht => ?_
    split at ht
    · cases ht
    · next u hu =>
      obtain ⟨-, rfl⟩ := writeLatch_ok hu
      exact (Except.ok.inj ht) ▸ rfl
  | gpioRead p =>
    obtain rfl := Host.Outcome.next.inj h
    refine onPin_frame fun q t ht => ?_
    split_ifs at ht
    exact (Except.ok.inj ht) ▸ rfl
  | honk | dmaArm =>
    obtain rfl := Host.Outcome.next.inj h
    cases ha : armed s with
    | error k => rfl
    | ok u => rw [armed_frame ha]; rfl
  | lutInit => obtain rfl := Host.Outcome.next.inj h; cases s.lut <;> rfl
  | timClockSet | timStart => obtain rfl := Host.Outcome.next.inj h; split_ifs <;> rfl
  | unrecognized | dacEnable | dmaDisarm => obtain rfl := Host.Outcome.next.inj h; rfl
  | bootDone =>
    by_cases hp : s.phase = .boot
    · by_cases hc : DirClocksOn s
      · obtain rfl := Host.Outcome.next.inj ((execBootDone_on hp hc).symm.trans h); rfl
      · obtain rfl := Host.Outcome.next.inj ((execBootDone_off hp hc).symm.trans h); rfl
    · obtain rfl := Host.Outcome.next.inj h
      rw [if_neg hp]; rfl

/-! ## The writers of the table, the timer, the index and the car -/

theorem exec_lut (h : exec i s = .next t) (hi : i ≠ .lutInit) : t.lut = s.lut := by
  have hf := exec_frame h
  cases i with
  | lutInit => exact absurd rfl hi
  | _ => exact congrArg (·.lut) hf

theorem exec_tim (h : exec i s = .next t) (hi : ∀ p r, i ≠ .timClockSet p r) :
    t.tim = { s.tim with en := t.tim.en } := by
  have hf := exec_frame h
  cases i with
  | timClockSet p r => exact absurd rfl (hi p r)
  | timStart => exact congrArg (·.tim) hf
  | _ => rw [show t.tim = s.tim from congrArg (·.tim) hf]

theorem exec_idx (h : exec i s = .next t) (ha : i ≠ .dmaArm) (hh : i ≠ .honk) : t.dma.idx = s.dma.idx := by
  have hf := exec_frame h
  cases i with
  | dmaArm => exact absurd rfl ha
  | honk => exact absurd rfl hh
  | _ => exact congrArg (·.dma.idx) hf

theorem exec_car (h : exec i s = .next t)
    (hi : i ∉ [Instr.drive, .accelerate, .brake, .stop, .turnLeft, .turnRight, .reverse]) : t.car = s.car := by
  have hf := exec_frame h
  cases i with
  | drive | accelerate | brake | stop | turnLeft | turnRight | reverse => exact absurd (by simp) hi
  | _ => exact congrArg (·.car) hf

/-! ## The moves -/

theorem step_runMove {m : Move} {ms : List Move} (hs : s.sched = m :: ms) (h : step s = .next t) :
    runMove m { s with sched := ms } = .next t := by
  obtain ⟨hf, hr, -⟩ := step_cases h
  rw [← step_of_move hf hr hs, h]

/-- The TIMER's move writes what a tick writes. -/
theorem runMove_tick_keeps (h : runMove .tick s = .next t) : TickKeeps s t := by
  obtain rfl := Host.Outcome.next.inj h
  split_ifs
  · exact tick_keeps s
  · exact ticks_keeps s 0

/-- Only the TIMER writes the DAC data register (41_audio R166). -/
theorem runMove_dacData {m : Move} (hm : m ≠ .tick) (h : runMove m s = .next t) : t.dac.data = s.dac.data := by
  rcases runMove_cases h with rfl | ⟨-, -, u, us, -, hx⟩ | ⟨-, -, r, rs, i, -, -, hx⟩ | ⟨-, -, r, rs, e, -, -, rfl⟩ |
    ⟨-, -, rfl⟩ | ⟨ht, -⟩
  · rfl
  · exact (exec_keeps hx).dacData
  · exact (exec_keeps hx).dacData
  · rfl
  · rfl
  · exact absurd ht hm

/-- The honk end move writes the DMA state, the phase and the reply alone (41_audio R173). -/
theorem runMove_honkEnd_frame (h : runMove .honkEnd s = .next t) :
    t = { s with dma := { s.dma with state := t.dma.state }, phase := t.phase, reply := t.reply } := by
  obtain rfl := Host.Outcome.next.inj h
  split_ifs <;> rfl

end

/-- Settles O49: ticks by `TickKeeps`, the other moves by what they can write, operations by `ExecFrame`. -/
theorem writersOfComponents : Obligations.WritersOfComponents := by
  unfold Obligations.WritersOfComponents
  refine ⟨fun s t ms hs h => ?_, fun s t m ms hs hm h => ?_, fun s t i h => ?_⟩
  · have hk := runMove_tick_keeps (step_runMove hs h)
    exact ⟨hk.car, hk.pwm, hk.phase, hk.lut, hk.psc, hk.arr, hk.timEn, hk.dmaState, hk.dacEn, hk.gpio, hk.clk⟩
  · have hmove := step_runMove hs h
    refine ⟨runMove_dacData (s := { s with sched := ms }) hm hmove, ?_⟩
    rintro rfl
    rw [runMove_honkEnd_frame hmove]
    exact ⟨rfl, rfl, rfl, rfl⟩
  · refine ⟨exec_lut h, fun hi => ?_, exec_idx h, exec_car h⟩
    rw [exec_tim h hi]
    exact ⟨rfl, rfl, rfl, rfl⟩

end Sys2Proof.Machine
end

section
/-! SUPPORT. The direction-pin code (30_encoding R75): what reflects CarState leaves its codes on the latches. -/

namespace Sys2Proof.Machine

section
variable {s t : State} {i : Instr}

/-- BOOT_DONE reflects the car it finds (40_motor R103, R120). -/
theorem execBootDone_reflects (hp : s.phase = .boot) (hc : DirClocksOn s) (h : exec .bootDone s = .next t)
    (q : PhysPin) : t.pin q = reflectedPin s.cfg.pinMap t.car q (s.pin q) := by
  obtain rfl := Host.Outcome.next.inj ((execBootDone_on hp hc).symm.trans h)
  exact reflectedState_pin s q

/-- A motor operation reflects the car it leaves (40_motor R103). -/
theorem exec_motor_reflects (hi : i ∈ motorOps) (hc : DirClocksOn s) (h : exec i s = .next t) (q : PhysPin) :
    t.pin q = reflectedPin s.cfg.pinMap t.car q (s.pin q) := by
  obtain ⟨sem, -, hsem⟩ := exec_motor hi
  obtain rfl := Host.Outcome.next.inj ((hsem s).symm.trans h)
  rw [(msmStep_on hc).car]
  exact msmStep_pin hc q

/-- Reflection on four distinct pins leaves the code of each side's direction (30_encoding R75). -/
theorem dirLatches_of_reflected (hd : DirPinsDistinct s.cfg.pinMap) (hcfg : t.cfg = s.cfg)
    (hpins : ∀ q, t.pin q = reflectedPin s.cfg.pinMap t.car q (s.pin q)) (side : Side) :
    t.dirLatches side =
      (some (dirCode (t.car.motor side).dir).1, some (dirCode (t.car.motor side).dir).2) := by
  obtain ⟨hLA, hLB, hRA, hRB⟩ := reflectedPin_latches hd t.car s.pin
  cases side with
  | left => simp only [State.dirLatches, hcfg, hpins, PinMap.dirA, PinMap.dirB, Car.motor, hLA, hLB]
  | right => simp only [State.dirLatches, hcfg, hpins, PinMap.dirA, PinMap.dirB, Car.motor, hRA, hRB]

end

/-- Settles O12: the pins are reflected by either kind of operation, and the code is read off the direction. -/
theorem directionPinsFollowCar : Obligations.DirectionPinsFollowCar := by
  unfold Obligations.DirectionPinsFollowCar
  intro s t i hi hc hd h side
  have hpins : ∀ q, t.pin q = reflectedPin s.cfg.pinMap t.car q (s.pin q) := by
    rcases hi with hm | ⟨rfl, hp⟩
    · exact exec_motor_reflects hm hc h
    · exact execBootDone_reflects hp hc h
  rw [dirLatches_of_reflected hd (exec_keeps h).cfg hpins side]
  refine ⟨?_, ?_, ?_⟩ <;> intro hdir <;> rw [hdir] <;> rfl

end Sys2Proof.Machine
end

section
/-! SUPPORT. The decoder of command units (30_encoding R72, R73). -/

namespace Sys2Proof

/-- A unit of one byte is read by TOKEN_MAP, and one that is no token is UNRECOGNIZED (30_encoding R72). -/
theorem decodeUnit_singleton (op : Byte) : decodeUnit [op] = (tokenOf op).getD (.unrecognized [op]) := by
  cases h : tokenOf op <;> simp [decodeUnit, h]

/-- Settles O55: TOKEN_MAP on a unit of one byte; a unit of any other length is none of the eight. -/
theorem tokenMap : Obligations.TokenMap := by
  unfold Obligations.TokenMap
  intro u
  match u with
  | [] => rfl
  | [op] =>
    rw [decodeUnit_singleton, tokenOf]
    simp only [List.cons.injEq, and_true]
    split_ifs <;> rfl
  | a :: b :: rest => simp [decodeUnit]

end Sys2Proof
end

section
/-! SUPPORT. Framing (30_encoding R71): a line of the stream is read up to its terminator. -/

namespace Sys2Proof

/-- Bytes other than the line terminator are gathered into the current line. -/
theorem unitsFrom_append_of_notMem {u : List Byte} (h : lineFeed ∉ u) (cur rest : List Byte) :
    unitsFrom cur (u ++ rest) = unitsFrom (cur ++ u) rest := by
  induction u generalizing cur with
  | nil => rw [List.append_nil, List.nil_append]
  | cons b u ih =>
    obtain ⟨hb, hu⟩ := not_or.1 (List.mem_cons.not.1 h)
    rw [List.cons_append, unitsFrom, if_neg (Ne.symm hb), ih hu, List.append_assoc, List.singleton_append]

/-- A unit at the head of the wire is the first unit (30_encoding R71, R84). -/
theorem unitsOf_wireOf_append {u : List Byte} (h : lineFeed ∉ u) (rest : List Byte) :
    unitsOf (wireOf u ++ rest) = u :: unitsOf rest := by
  rw [unitsOf, wireOf, List.append_assoc, unitsFrom_append_of_notMem h, List.nil_append, List.singleton_append,
    unitsFrom, if_pos rfl, unitsOf]

/-- Bytes with no line terminator hold no unit yet (log 6). -/
theorem unitsOf_of_notMem {tail : List Byte} (h : lineFeed ∉ tail) : unitsOf tail = [] := by
  have hgather := unitsFrom_append_of_notMem h [] []
  rwa [List.append_nil] at hgather

/-- Settles O60: by induction on the units, each of which heads what is left of the stream. -/
theorem framingSplitsLines : Obligations.FramingSplitsLines := by
  unfold Obligations.FramingSplitsLines
  intro us tail hus htail
  induction us with
  | nil => exact unitsOf_of_notMem htail
  | cons u us ih =>
    obtain ⟨hu, hus⟩ := List.forall_mem_cons.1 hus
    rw [List.map_cons, List.flatten_cons, List.append_assoc]
    exact (unitsOf_wireOf_append hu _).trans (congrArg (u :: ·) (ih hus))

end Sys2Proof
end

section
/-! SUPPORT. A CTRL record the decoder refuses (30_encoding R81; 60_exceptions R227). -/

namespace Sys2Proof.Machine

section
variable {s : State} {r : CtrlRecord} {rs : List CtrlRecord} {e : DecodeError}

theorem runMove_ctrl_refused (hp : s.phase ≠ .honkBusy) (hr : s.ctrlOps = r :: rs)
    (he : decodeCtrl s.cfg r = .error e) :
    runMove .ctrl s = .next (refusedFor (refusalOf e) { s with ctrlOps := rs }) := by
  simp [runMove, moveCtrl, hr, acceptsCtrl, hp, he, refuse_eq_refusedFor]

theorem step_ctrl_refused {ms : List Move} (hf : s.fault = none) (hx : s.refusal = none) (hs : s.sched = .ctrl :: ms)
    (hp : s.phase ≠ .honkBusy) (hr : s.ctrlOps = r :: rs) (he : decodeCtrl s.cfg r = .error e) :
    step s = .next (refusedFor (refusalOf e) { s with sched := ms, ctrlOps := rs }) := by
  rw [step_of_move hf hx hs]
  exact runMove_ctrl_refused (s := { s with sched := ms }) hp hr he

end

/-- Settles O44: the decoder's error, whichever of the three, becomes the mark. -/
theorem stepRefusesRecord : Obligations.StepRefusesRecord := by
  unfold Obligations.StepRefusesRecord
  intro s ms r rs hf hx hs hr hp
  have refused := fun e => step_ctrl_refused (e := e) hf hx hs hp hr
  exact ⟨refused _, refused _, refused _⟩

end Sys2Proof.Machine
end

section
/-! SUPPORT. The CTRL selector map (30_encoding R79, R80): GPIO_WRITE's level, and the selectors that are none of the
fourteen. -/

namespace Sys2Proof

/-- GPIO_WRITE reads its level as the bit `b` (30_encoding R81). -/
theorem decodeWrite_of_decodePin {c : Config} {id : Nat} {p : PinName} (h : decodePin c id = .ok p) (l : Bool) :
    decodeWrite c id l.toNat = .ok (.gpioWrite p l) := by
  cases l <;> simp [decodeWrite, h]

/-- A selector that is none of the fourteen is refused before any field is read (30_encoding R81). -/
theorem decodeCtrl_badSelector (c : Config) {r : CtrlRecord} (h : isSelector r.sel = false) :
    decodeCtrl c r = .error .badSelector := by
  simp only [isSelector, List.contains_cons, List.contains_nil, Bool.or_eq_false_iff, beq_eq_false_iff_ne] at h
  simp only [decodeCtrl, h, if_false]

/-- Settles O56: the pin operand once for the GPIO selectors, the other seven by the map, the rest by elimination. -/
theorem selectorMap : Obligations.SelectorMap := by
  unfold Obligations.SelectorMap
  intro c pin a b
  refine ⟨fun p hp => ?_, rfl, rfl, rfl, rfl, rfl, rfl, rfl, fun sel hsel => ?_⟩
  · exact ⟨withPin_of_decodePin hp _, withPin_of_decodePin hp _, withPin_of_decodePin hp _,
      withPin_of_decodePin hp _, withPin_of_decodePin hp _, decodeWrite_of_decodePin hp false,
      decodeWrite_of_decodePin hp true, withPin_of_decodePin hp _⟩
  · exact decodeCtrl_badSelector c (by simpa [isSelector] using hsel)

end Sys2Proof
end

section
/-! SUPPORT. What the motor operations do (40_motor R100 to R122): the clocks of the direction pins decide whether the
semantics on CarState is carried out, and what each semantics can make of one motor is said once. -/

namespace Sys2Proof.Machine

section
variable {s t : State} {i : Instr} {sem : Car → Car × Status}

/-! ## A motor operation by its semantics -/

theorem MotorSemantics.exec_eq (h : MotorSemantics i sem) (s : State) : exec i s = .next (msmStep sem s) := by
  cases h <;> rfl

theorem MotorSemantics.exec_on (h : MotorSemantics i sem) (hc : DirClocksOn s) :
    ∃ t, exec i s = .next t ∧ t.car = (sem s.car).1 ∧ MotorOutcome t.car (sem s.car).2 s t := by
  have hout := msmStep_on (sem := sem) hc
  exact ⟨_, h.exec_eq s, hout.car, hout.car ▸ hout⟩

theorem MotorSemantics.exec_off (h : MotorSemantics i sem) (hc : ¬ DirClocksOn s) :
    exec i s = .next (faulted .gpioClockOff s) := by
  rw [h.exec_eq, msmStep_off hc]

theorem MotorSemantics.car_on (h : MotorSemantics i sem) (hc : DirClocksOn s) (hx : exec i s = .next t) :
    t.car = (sem s.car).1 := by
  obtain rfl := Host.Outcome.next.inj ((h.exec_eq s).symm.trans hx)
  exact (msmStep_on hc).car

/-- A motor operation computes the new car from the old, or faults and leaves it. -/
theorem MotorSemantics.car_cases (h : MotorSemantics i sem) (hx : exec i s = .next t) :
    t.car = (sem s.car).1 ∨ t.car = s.car := by
  by_cases hc : DirClocksOn s
  · exact .inl (h.car_on hc hx)
  · obtain rfl := Host.Outcome.next.inj ((h.exec_off hc).symm.trans hx)
    exact .inr rfl

/-- No operation turns a clock of a direction pin off (10_state R37, R39). -/
theorem exec_dirClocksOn (hx : exec i s = .next t) (hc : DirClocksOn s) : DirClocksOn t := by
  have hk := exec_keeps hx
  obtain ⟨hLA, hLB, hRA, hRB⟩ := hc
  rw [DirClocksOn, hk.cfg]
  exact ⟨hk.clock _ hLA, hk.clock _ hLB, hk.clock _ hRA, hk.clock _ hRB⟩

/-! ## What becomes of one motor -/

theorem startFrom_of_stopped {c : Car} (h : BothStopped c) (dir : Dir) :
    c.startFrom dir = (⟨⟨600, dir⟩, ⟨600, dir⟩⟩, .ok) := if_pos h

theorem startFrom_of_moving {c : Car} (h : ¬ BothStopped c) (dir : Dir) :
    c.startFrom dir = (c, .noTransition) := if_neg h

/-- What a step can make of a motor: the same, a motor at rest, one at BASE_DUTY in a direction, or one whose duty was
proposed one STEP up or down. -/
inductive MotorMove (m : Motor) : Motor → Prop where
  | same : MotorMove m m
  | halted : MotorMove m Motor.halted
  | base (dir : Dir) (h : dir ≠ .stopped) : MotorMove m ⟨600, dir⟩
  | up : MotorMove m (m.propose (m.duty.toNat + (stepDuty : Int)))
  | down : MotorMove m (m.propose (m.duty.toNat + -(stepDuty : Int)))

theorem startFrom_motorMove {dir : Dir} (h : dir ≠ .stopped) (c : Car) (side : Side) :
    MotorMove (c.motor side) ((c.startFrom dir).1.motor side) := by
  by_cases hs : BothStopped c
  · rw [startFrom_of_stopped hs]
    cases side <;> exact .base dir h
  · rw [startFrom_of_moving hs]
    exact .same

theorem MotorSemantics.motorMove (h : MotorSemantics i sem) (c : Car) (side : Side) :
    MotorMove (c.motor side) ((sem c).1.motor side) := by
  cases h with
  | drive | reverse => exact startFrom_motorMove (by decide) c side
  | accelerate =>
    simp only [bump_left, bump_right]
    cases side <;> simp only [Car.motor] <;> exact .up
  | brake => cases side <;> exact .down
  | stop => cases side <;> exact .halted
  | turnLeft =>
    cases side with
    | left => exact .down
    | right => exact .same
  | turnRight =>
    cases side with
    | left => exact .same
    | right => exact .down

theorem exec_motorMove (hx : exec i s = .next t) (side : Side) : MotorMove (s.car.motor side) (t.car.motor side) := by
  by_cases hi : i ∈ motorOps
  · obtain ⟨sem, hsem, -⟩ := exec_motor hi
    rcases hsem.car_cases hx with hcar | hcar <;> rw [hcar]
    · exact hsem.motorMove s.car side
    · exact .same
  · rw [exec_car hx hi]
    exact .same

theorem runMove_motorMove {m : Move} (h : runMove m s = .next t) (side : Side) :
    MotorMove (s.car.motor side) (t.car.motor side) := by
  rcases runMove_cases h with rfl | ⟨-, -, u, us, -, hx⟩ | ⟨-, -, r, rs, i, -, -, hx⟩ | ⟨-, -, r, rs, e, -, -, rfl⟩ |
    ⟨-, -, rfl⟩ | ⟨-, -, rfl⟩
  · exact .same
  · exact exec_motorMove hx side
  · exact exec_motorMove hx side
  · exact .same
  · exact .same
  · rw [(tick_keeps s).car]
    exact .same

theorem step_motorMove (h : step s = .next t) (side : Side) : MotorMove (s.car.motor side) (t.car.motor side) := by
  obtain ⟨-, -, ⟨-, rfl⟩ | ⟨m, ms, -, hm⟩⟩ := step_cases h
  · exact .same
  · exact runMove_motorMove hm side

end

/-! ## What the moves of a motor keep -/

section
variable {m n : Motor}

theorem MotorMove.motorOk (h : MotorMove m n) (hm : MotorOk m) : MotorOk n := by
  cases h with
  | same => exact hm
  | halted => exact motorOk_halted
  | base dir hd => exact motorOk_base hd
  | up => exact propose_motorOk hm _ le_rfl
  | down => exact propose_motorOk hm _ (by decide)

/-- One STEP keeps the remainder modulo 30, and saturation gives 1023, whose remainder is 3 (40_motor R122). -/
theorem OneStepUp.reachableDuty (h : OneStepUp m n) (hm : ReachableDuty m.duty.toNat) :
    ReachableDuty n.duty.toNat := by
  obtain ⟨hcollapse, hstep⟩ := h
  rcases Nat.lt_or_ge (m.duty.toNat + 30) 300 with hlow | hhigh
  · rw [hcollapse hlow]
    exact .inl rfl
  · rw [(hstep hhigh).2]
    unfold ReachableDuty at hm ⊢
    omega

theorem OneStepDown.reachableDuty (h : OneStepDown m n) (hm : ReachableDuty m.duty.toNat) :
    ReachableDuty n.duty.toNat := by
  obtain ⟨hcollapse, hstep⟩ := h
  rcases Nat.lt_or_ge m.duty.toNat 330 with hlow | hhigh
  · rw [hcollapse hlow]
    exact .inl rfl
  · have hduty := (hstep hhigh).2
    unfold ReachableDuty at hm ⊢
    omega

theorem MotorMove.reachableDuty (h : MotorMove m n) (hm : ReachableDuty m.duty.toNat) :
    ReachableDuty n.duty.toNat := by
  cases h with
  | same => exact hm
  | halted => exact .inl rfl
  | base dir hd => exact .inr (show 300 ≤ 600 ∧ 600 ≤ 1023 ∧ (600 % 30 = 0 ∨ 600 % 30 = 3) by decide)
  | up => exact (propose_up m).reachableDuty hm
  | down => exact (propose_down m).reachableDuty hm

/-- From `m` to `n` the direction stays or becomes STOPPED, the duty does not rise, and a stopped motor stays as it is. -/
def NeverStartsOrRaises (m n : Motor) : Prop :=
  (n.dir = m.dir ∨ n.dir = .stopped) ∧ n.duty.toNat ≤ m.duty.toNat ∧ (m.dir = .stopped → n = m)

theorem NeverStartsOrRaises.refl (m : Motor) : NeverStartsOrRaises m m := ⟨.inl rfl, le_rfl, fun _ => rfl⟩

/-- A motor that meets the invariant of 10_state R22 is at rest when it is STOPPED. -/
theorem MotorOk.eq_halted (hm : MotorOk m) (hs : m.dir = .stopped) : m = Motor.halted := by
  obtain ⟨d, dir⟩ := m
  obtain rfl : dir = .stopped := hs
  obtain rfl : d = 0 := hm.1.2 rfl
  rfl

theorem OneStepDown.neverStartsOrRaises (h : OneStepDown m n) (hm : MotorOk m) : NeverStartsOrRaises m n := by
  obtain ⟨hcollapse, hstep⟩ := h
  rcases Nat.lt_or_ge m.duty.toNat 330 with hlow | hhigh
  · rw [hcollapse hlow]
    exact ⟨.inr rfl, Nat.zero_le _, fun hs => (hm.eq_halted hs).symm⟩
  · obtain ⟨hdir, hduty⟩ := hstep hhigh
    refine ⟨.inl hdir, by omega, fun hs => ?_⟩
    rw [hm.eq_halted hs] at hhigh
    exact absurd hhigh (by decide)

/-- A TURN takes one STEP off its own side and leaves the other (40_motor R114, R116). -/
theorem bump_down_motor (c : Car) (turned side : Side) : (c.bump (-stepDuty) turned).motor side = c.motor side ∨
    OneStepDown (c.motor side) ((c.bump (-stepDuty) turned).motor side) := by
  cases turned <;> cases side
  · exact .inr (propose_down c.left)
  · exact .inl rfl
  · exact .inl rfl
  · exact .inr (propose_down c.right)

end

/-- Settles O17: a step moves each motor as `MotorMove` says, and that keeps the invariant and the duties. -/
theorem stepKeepsReachableDuties : Obligations.StepKeepsReachableDuties := by
  unfold Obligations.StepKeepsReachableDuties
  intro s t hs h side
  have hmove := step_motorMove h side
  exact ⟨hmove.motorOk (hs side).1, hmove.reachableDuty (hs side).2⟩

/-- Settles O16: an operation moves each motor as `MotorMove` says. -/
theorem motorOperationsKeepMotorInvariant : Obligations.MotorOperationsKeepMotorInvariant := by
  unfold Obligations.MotorOperationsKeepMotorInvariant
  intro s t i _ hs hx side
  exact (exec_motorMove hx side).motorOk (hs side)

/-- Settles O11: with the clocks on, each side goes one STEP down or stays; with one off, both stay. -/
theorem turnNeverStartsOrRaises : Obligations.TurnNeverStartsOrRaises := by
  unfold Obligations.TurnNeverStartsOrRaises
  intro s t i hi hok hx side
  change NeverStartsOrRaises (s.car.motor side) (t.car.motor side)
  obtain ⟨turned, hsem⟩ : ∃ turned, MotorSemantics i (fun c => (c.bump (-stepDuty) turned, .ok)) := by
    rcases hi with rfl | rfl
    · exact ⟨.left, .turnLeft⟩
    · exact ⟨.right, .turnRight⟩
  rcases hsem.car_cases hx with hcar | hcar <;> rw [hcar]
  · rcases bump_down_motor s.car turned side with hsame | hdown
    · rw [hsame]
      exact .refl _
    · exact hdown.neverStartsOrRaises (hok side)
  · exact .refl _

end Sys2Proof.Machine
end

section
/-! SUPPORT. The result of each motor operation (40_motor R106 to R118), and the laws the spec derives from them. -/

namespace Sys2Proof.Machine

/-- DRIVE and REVERSE, whichever the direction (40_motor R106, R118). -/
theorem MotorSemantics.start_result {i : Instr} {dir : Dir} (h : MotorSemantics i (Car.startFrom dir)) (s : State) :
    (DirClocksOn s → BothStopped s.car →
      ∃ t, exec i s = .next t ∧ MotorOutcome ⟨⟨600, dir⟩, ⟨600, dir⟩⟩ .ok s t) ∧
    (DirClocksOn s → ¬ BothStopped s.car → ∃ t, exec i s = .next t ∧ MotorOutcome s.car .noTransition s t) ∧
    (¬ DirClocksOn s → exec i s = .next (faulted .gpioClockOff s)) := by
  refine ⟨fun hc hs => ?_, fun hc hs => ?_, h.exec_off⟩ <;> obtain ⟨t, hx, hcar, hout⟩ := h.exec_on hc
  · rw [hcar, startFrom_of_stopped hs] at hout
    exact ⟨t, hx, hout⟩
  · rw [hcar, startFrom_of_moving hs] at hout
    exact ⟨t, hx, hout⟩

/-- Settles O1: DRIVE is the start in direction FORWARD. -/
theorem driveResult : Obligations.DriveResult := by
  unfold Obligations.DriveResult
  exact ⟨rfl, MotorSemantics.drive.start_result⟩

/-- Settles O2: REVERSE is the start in direction BACKWARD. -/
theorem reverseResult : Obligations.ReverseResult := by
  unfold Obligations.ReverseResult
  exact ⟨rfl, MotorSemantics.reverse.start_result⟩

/-- Settles O3: both sides are proposed one STEP up. -/
theorem accelerateResult : Obligations.AccelerateResult := by
  unfold Obligations.AccelerateResult
  refine ⟨rfl, fun s => ⟨fun hc => ?_, MotorSemantics.accelerate.exec_off⟩⟩
  obtain ⟨t, hx, hcar, hout⟩ := MotorSemantics.accelerate.exec_on hc
  obtain ⟨hleft, hright⟩ := bumped_up s.car
  exact ⟨t, hx, hcar ▸ hleft, hcar ▸ hright, hout⟩

/-- Settles O5: both sides are proposed one STEP down. -/
theorem brakeResult : Obligations.BrakeResult := by
  unfold Obligations.BrakeResult
  refine ⟨rfl, fun s => ⟨fun hc => ?_, MotorSemantics.brake.exec_off⟩⟩
  obtain ⟨t, hx, hcar, hout⟩ := MotorSemantics.brake.exec_on hc
  obtain ⟨hleft, hright⟩ := bumped_down s.car
  exact ⟨t, hx, hcar ▸ hleft, hcar ▸ hright, hout⟩

/-- Settles O6: the car of STOP is a constant. -/
theorem stopResult : Obligations.StopResult := by
  unfold Obligations.StopResult
  refine ⟨rfl, fun s => ⟨fun hc => ?_, MotorSemantics.stop.exec_off⟩⟩
  obtain ⟨t, hx, hcar, hout⟩ := MotorSemantics.stop.exec_on hc
  rw [hcar] at hout
  exact ⟨t, hx, hout⟩

/-- Settles O8: the left side is proposed one STEP down, the right side is not touched. -/
theorem turnLeftResult : Obligations.TurnLeftResult := by
  unfold Obligations.TurnLeftResult
  refine ⟨rfl, fun s => ⟨fun hc => ?_, MotorSemantics.turnLeft.exec_off⟩⟩
  obtain ⟨t, hx, hcar, hout⟩ := MotorSemantics.turnLeft.exec_on hc
  exact ⟨t, hx, hcar ▸ propose_down s.car.left, congrArg (·.right) hcar, hout⟩

/-- Settles O9: the right side is proposed one STEP down, the left side is not touched. -/
theorem turnRightResult : Obligations.TurnRightResult := by
  unfold Obligations.TurnRightResult
  refine ⟨rfl, fun s => ⟨fun hc => ?_, MotorSemantics.turnRight.exec_off⟩⟩
  obtain ⟨t, hx, hcar, hout⟩ := MotorSemantics.turnRight.exec_on hc
  exact ⟨t, hx, hcar ▸ propose_down s.car.right, congrArg (·.left) hcar, hout⟩

/-! ## Derived laws -/

/-- Settles O10: all three operations bump their sides by the same delta. -/
theorem turnIsBrakeOnOneSide : Obligations.TurnIsBrakeOnOneSide := by
  unfold Obligations.TurnIsBrakeOnOneSide
  intro s b l r hc hb hl hr
  rw [MotorSemantics.brake.car_on hc hb, MotorSemantics.turnLeft.car_on hc hl, MotorSemantics.turnRight.car_on hc hr]
  exact ⟨rfl, rfl⟩

/-- Settles O7: the car is at rest, its duties are written, and its codes are on the latches, so a second STOP writes
what is there. -/
theorem stopIsIdempotent : Obligations.StopIsIdempotent := by
  unfold Obligations.StopIsIdempotent
  intro s t hc hx
  have hct := exec_dirClocksOn hx hc
  refine ⟨MotorSemantics.stop.car_on hc hx, ?_⟩
  rw [MotorSemantics.stop.exec_eq, msmStep_eq hct]
  obtain rfl := Host.Outcome.next.inj ((MotorSemantics.stop.exec_eq s).symm.trans hx)
  simp only [msmStep_eq hc, reflectedPins_halted_twice]

/-- `c` is the car after `k` ACCELERATE steps from BASE_DUTY in direction `dir` (40_motor R109). -/
def AcceleratedCar (dir : Dir) (k : Nat) (c : Car) : Prop :=
  (c.left.duty.toNat = if k ≤ 14 then 600 + 30 * k else 1023) ∧ c.right = c.left ∧ c.left.dir = dir

/-- One STEP up moves the car on: the duty stays from MIN_DUTY up, so the direction is kept. -/
theorem AcceleratedCar.bump {dir : Dir} {k : Nat} {c : Car} (h : AcceleratedCar dir k c) :
    AcceleratedCar dir (k + 1) ((c.bump stepDuty .left).bump stepDuty .right) := by
  obtain ⟨hduty, hright, hdir⟩ := h
  have hstep := (propose_up c.left).2 (by split_ifs at hduty <;> omega)
  simp only [bump_left, bump_right, hright]
  refine ⟨hstep.2.trans ?_, rfl, hstep.1.trans hdir⟩
  split_ifs at hduty ⊢ <;> omega

/-- Settles O4: by induction on the number of steps, the clocks staying on. -/
theorem accelerateSaturates : Obligations.AccelerateSaturates := by
  unfold Obligations.AccelerateSaturates
  intro run dir hclocks hcar hrun k
  suffices DirClocksOn (run k) ∧ AcceleratedCar dir k (run k).car from this.2
  induction k with
  | zero => exact ⟨hclocks, by rw [hcar]; exact ⟨(if_pos (Nat.zero_le 14)).symm, rfl, rfl⟩⟩
  | succ k ih =>
    obtain ⟨hc, haccel⟩ := ih
    refine ⟨exec_dirClocksOn (hrun k) hc, ?_⟩
    rw [MotorSemantics.accelerate.car_on hc (hrun k)]
    exact haccel.bump

/-! ## Noninterference -/

theorem dirClocksOn_congr {s₁ s₂ : State} (hcfg : s₁.cfg = s₂.cfg) (hclk : s₁.clk = s₂.clk) :
    DirClocksOn s₁ ↔ DirClocksOn s₂ := by
  simp only [DirClocksOn, State.clockOn, hcfg, hclk]

/-- Settles O18: with the clocks on, what is written is a function of the parameters, the car and the pins; with one off,
nothing of it is written. -/
theorem motorPathIgnoresAudio : Obligations.MotorPathIgnoresAudio := by
  unfold Obligations.MotorPathIgnoresAudio
  intro s₁ s₂ t₁ t₂ i hi hcfg hcar hpwm hgpio hclk hx₁ hx₂
  obtain ⟨sem, -, hsem⟩ := exec_motor hi
  obtain rfl := Host.Outcome.next.inj ((hsem s₁).symm.trans hx₁)
  obtain rfl := Host.Outcome.next.inj ((hsem s₂).symm.trans hx₂)
  by_cases hc : DirClocksOn s₁
  · rw [msmStep_eq hc, msmStep_eq ((dirClocksOn_congr hcfg hclk).1 hc)]
    simp only [hcfg, hcar, hgpio, and_self]
  · rw [msmStep_off hc, msmStep_off ((dirClocksOn_congr hcfg hclk).not.1 hc)]
    exact ⟨hcar, hpwm, hgpio, rfl⟩

end Sys2Proof.Machine
end

section
/-! SUPPORT. BOOT_DONE and UNRECOGNIZED (40_motor R120, R123), and when a step takes work (40_motor R105; 60_exceptions
R228). -/

namespace Sys2Proof.Machine

/-- BOOT_DONE reflects the car it finds, and all else it does is the phase (40_motor R120). -/
theorem execBootDone_outcome {s : State} (hp : s.phase = .boot) (hc : DirClocksOn s) :
    ∃ t, exec .bootDone s = .next t ∧ MotorOutcome s.car .ok { s with phase := .idle } t :=
  ⟨_, execBootDone_on hp hc, motorOutcome_of_pins rfl rfl rfl rfl (reflectedState_pin s)⟩

/-- Settles O14: by the phase and the clocks. -/
theorem bootDoneResult : Obligations.BootDoneResult := by
  unfold Obligations.BootDoneResult
  refine ⟨fun _ _ _ _ => rfl, fun s => ⟨fun hp => ?_, execBootDone_outcome, execBootDone_off⟩⟩
  exact congrArg Host.Outcome.next (if_neg hp)

/-- Settles O15: the operation is the trace entry and the empty reply. -/
theorem unrecognizedResult : Obligations.UnrecognizedResult := by
  unfold Obligations.UnrecognizedResult
  exact fun _ _ => rfl

section
variable {s : State} {ms : List Move}

theorem runMove_unit_taken {u : List Byte} {us : List (List Byte)} (hu : s.hostUnits = u :: us) (hp : s.phase = .idle) :
    runMove .unit s = exec (decodeUnit u) { s with hostUnits := us } := by
  simp [runMove, moveUnit, hu, acceptsUnit, hp]

theorem runMove_ctrl_taken {r : CtrlRecord} {rs : List CtrlRecord} {i : Instr} (hr : s.ctrlOps = r :: rs)
    (hi : decodeCtrl s.cfg r = .ok i) (hp : s.phase ≠ .honkBusy) :
    runMove .ctrl s = exec i { s with ctrlOps := rs } := by
  simp [runMove, moveCtrl, hr, acceptsCtrl, hp, hi]

end

/-- Settles O43: work that the phase accepts is taken, and the move is not enabled in the other phases. -/
theorem stepTakesWork : Obligations.StepTakesWork := by
  unfold Obligations.StepTakesWork
  intro s ms
  refine ⟨fun hstop t h => ?_, fun hf hx => ⟨fun hs u us hu => ⟨fun hp => ?_, fun hp => ?_⟩,
    fun hs r rs i hr hi => ⟨fun hp => ?_, fun hp => ?_⟩⟩⟩
  · obtain ⟨hf, hx, -⟩ := step_cases h
    exact hstop.elim (absurd hf) (absurd hx)
  · rw [step_of_move hf hx hs]
    exact runMove_unit_taken (s := { s with sched := ms }) hu hp
  · exact disabledMoveChangesNothing s _ ms (running_iff.2 ⟨hf, hx⟩) hs (by simp [Move.enabled, acceptsUnit, hp])
  · rw [step_of_move hf hx hs]
    exact runMove_ctrl_taken (s := { s with sched := ms }) hr hi hp
  · exact disabledMoveChangesNothing s _ ms (running_iff.2 ⟨hf, hx⟩) hs (by simp [Move.enabled, acceptsCtrl, hp])

end Sys2Proof.Machine
end

section
/-! SUPPORT. The operations of the audio path (41_audio R148 to R172): what arming answers, and the result of each
operation. -/

namespace Sys2Proof.Machine

/-! ## Arming -/

section
variable {s t : State} {k : Fault}

theorem armed_of_no_table (h : s.lut = none) : armed s = .error .lutUninit := by
  simp [armed, h]

/-- Arming twice changes nothing (41_audio R164). -/
theorem armed_of_armed (hl : s.lut ≠ none) (hd : s.dma.state = .armed) : armed s = .ok s := by
  obtain ⟨T, hT⟩ := Option.ne_none_iff_exists'.1 hl
  simp [armed, hT, hd]

theorem armed_of_idle (hl : s.lut ≠ none) (hd : s.dma.state = .idle) :
    armed s = .ok { s with dma := ⟨.armed, some (Config.armStart s.draws)⟩, draws := s.draws + 1 } := by
  obtain ⟨T, hT⟩ := Option.ne_none_iff_exists'.1 hl
  simp [armed, hT, hd]

theorem execDmaArm_of_ok (h : armed s = .ok t) : exec .dmaArm s = .next (returns .ok t) := by
  simp [exec, execDmaArm, h, settle]

theorem execDmaArm_of_error (h : armed s = .error k) : exec .dmaArm s = .next (faulted k s) := by
  simp [exec, execDmaArm, h, settle, raise_eq_faulted]

theorem execHonk_of_ok (h : armed s = .ok t) : exec .honk s = .next { t with phase := .honkBusy, reply := none } := by
  simp [exec, execHonk, h, settle, returnsNothing]

theorem execHonk_of_error (h : armed s = .error k) : exec .honk s = .next (faulted k s) := by
  simp [exec, execHonk, h, settle, raise_eq_faulted]

end

/-- Settles O36: DMA_ARM answers what arming answers. -/
theorem dmaArmResult : Obligations.DmaArmResult := by
  unfold Obligations.DmaArmResult
  exact ⟨fun _ _ _ _ => rfl, fun s => ⟨fun hl => execDmaArm_of_error (armed_of_no_table hl),
    fun hl hd => execDmaArm_of_ok (armed_of_armed hl hd), fun hl hd => execDmaArm_of_ok (armed_of_idle hl hd)⟩⟩

/-- Settles O19: HONK answers what arming answers, in phase HONK_BUSY. -/
theorem honkResult : Obligations.HonkResult := by
  unfold Obligations.HonkResult
  exact ⟨rfl, fun s => ⟨fun hl => execHonk_of_error (armed_of_no_table hl),
    fun hl hd => execHonk_of_ok (armed_of_idle hl hd), fun hl hd => execHonk_of_ok (armed_of_armed hl hd)⟩⟩

/-- Settles O37: DMA_DISARM is `disarmed` with status OK. -/
theorem dmaDisarmResult : Obligations.DmaDisarmResult := by
  unfold Obligations.DmaDisarmResult
  exact ⟨fun _ _ _ _ => rfl, fun _ => rfl⟩

/-! ## DAC and analog output -/

/-- Settles O33: the operation is the enable with status OK. -/
theorem dacEnableResult : Obligations.DacEnableResult := by
  unfold Obligations.DacEnableResult
  exact ⟨fun _ _ _ _ => rfl, fun _ => rfl⟩

/-- Settles O42: by the enable, and by whether there is data. -/
theorem analogOutputIsDacData : Obligations.AnalogOutputIsDacData := by
  unfold Obligations.AnalogOutputIsDacData State.analogOutput
  refine fun s v => ⟨fun hen hdata => (if_pos hen).trans hdata, ?_⟩
  rintro (hen | hdata)
  · simp [hen]
  · rw [hdata, ite_self]

/-! ## Timer -/

section
variable {s : State} {psc arr : Nat}

theorem timerOperandsOk_iff {c : Config} :
    timerOperandsOk c psc arr = true ↔ psc < 2 ^ c.timerWidth ∧ 1 ≤ arr ∧ arr < 2 ^ c.timerWidth := by
  rw [timerOperandsOk, decide_eq_true_eq]
  tauto

theorem execTimClockSet_of_ok (h : timerOperandsOk s.cfg psc arr = true) : exec (.timClockSet psc arr) s =
    .next { s with tim := ⟨s.tim.en, some psc, some arr, 0, 0⟩, reply := some ⟨.ok, none⟩ } :=
  congrArg Host.Outcome.next (if_pos h)

theorem execTimClockSet_of_range (h : ¬ timerOperandsOk s.cfg psc arr = true) :
    exec (.timClockSet psc arr) s = .next (refusedFor .timerRange s) :=
  congrArg Host.Outcome.next (if_neg h)

end

/-- Settles O34: by whether the operands are in range. -/
theorem timClockSetResult : Obligations.TimClockSetResult := by
  unfold Obligations.TimClockSetResult
  refine ⟨fun _ _ _ _ => rfl, fun s psc arr => ?_⟩
  rw [← timerOperandsOk_iff]
  exact ⟨execTimClockSet_of_ok, execTimClockSet_of_range⟩

/-- Settles O35: by whether TIM_CLOCK_SET came before. -/
theorem timStartResult : Obligations.TimStartResult := by
  unfold Obligations.TimStartResult
  exact ⟨fun _ _ _ _ => rfl, fun s => ⟨fun h => congrArg Host.Outcome.next (if_pos h),
    fun h => congrArg Host.Outcome.next (if_neg (not_or.2 h))⟩⟩

end Sys2Proof.Machine
end

section
/-! SUPPORT. The TIMER's tick and the honk end step as steps of the machine (41_audio R158, R159, R166, R173). -/

namespace Sys2Proof.Machine

section
variable {s : State} {psc arr : Nat}

theorem overflowsNow_eq_false_iff (hp : s.tim.psc = some psc) (ha : s.tim.arr = some arr) :
    overflowsNow s = false ↔ s.tim.pcnt < psc ∨ s.tim.cnt < arr := by
  rw [← Bool.not_eq_true, overflowsNow_iff hp ha]
  omega

/-- Below the prescaler, a tick counts pcnt. -/
theorem tick_of_pcnt_lt (hp : s.tim.psc = some psc) (ha : s.tim.arr = some arr) (h : s.tim.pcnt < psc) :
    tick s = { s with tim := { s.tim with pcnt := s.tim.pcnt + 1 } } := by
  obtain ⟨-, ht⟩ | ⟨hge, -⟩ := tick_counting hp ha ((overflowsNow_eq_false_iff hp ha).2 (.inl h))
  · exact ht
  · omega

/-- At the prescaler and below the reload, a tick clears pcnt and counts cnt. -/
theorem tick_of_cnt_lt (hp : s.tim.psc = some psc) (ha : s.tim.arr = some arr) (h : psc ≤ s.tim.pcnt)
    (hc : s.tim.cnt < arr) : tick s = { s with tim := { s.tim with pcnt := 0, cnt := s.tim.cnt + 1 } } := by
  obtain ⟨hlt, -⟩ | ⟨-, -, ht⟩ := tick_counting hp ha ((overflowsNow_eq_false_iff hp ha).2 (.inr hc))
  · omega
  · exact ht

/-- A scheduled tick of a running timer is a tick of the state without that move. -/
theorem step_tick {t : State} {ms : List Move} (hf : s.fault = none) (hr : s.refusal = none)
    (hs : s.sched = .tick :: ms) (hen : s.tim.en = true) (ht : tick { s with sched := ms } = t) : step s = .next t := by
  rw [step_of_move hf hr hs, ← ht]
  exact congrArg Host.Outcome.next (if_pos hen)

/-- The honk end move of a honk is its end step (41_audio R173). -/
theorem runMove_honkEnd (hp : s.phase = .honkBusy) : runMove .honkEnd s = .next (honkEnd s) :=
  congrArg Host.Outcome.next (if_pos hp)

end

/-- Settles O38: by the timer's enable, then by which of the two counters is at its end, then by the DMA state. -/
theorem tickResult : Obligations.TickResult := by
  unfold Obligations.TickResult
  intro s ms psc arr hf hr hs
  refine ⟨fun hen => ?_, fun hen hp ha => ⟨fun h => ?_, fun h hc => ?_, fun h hc hd => ?_, fun h hc hd T i hT hi => ?_⟩⟩
  · exact disabledMoveChangesNothing s _ ms (running_iff.2 ⟨hf, hr⟩) hs (by simp [Move.enabled, hen])
  · exact step_tick hf hr hs hen (tick_of_pcnt_lt hp ha h)
  · exact step_tick hf hr hs hen (tick_of_cnt_lt hp ha h hc)
  · exact step_tick hf hr hs hen (tick_overflow_idle hp ha ((overflowsNow_iff hp ha).2 ⟨h, hc⟩) (by simp [hd]))
  · exact ⟨i + 1, Fin.val_add i 1,
      step_tick hf hr hs hen
        (tick_overflow_armed (s := { s with sched := ms }) hp ha ((overflowsNow_iff hp ha).2 ⟨h, hc⟩) hd hT hi)⟩

/-- Settles O20: the honk end step is `honkEnd` where it is enabled, and nothing elsewhere. -/
theorem honkEndResult : Obligations.HonkEndResult := by
  unfold Obligations.HonkEndResult
  intro s ms hf hr hs
  refine ⟨fun hp => ?_, fun hp => ?_⟩
  · exact (step_of_move hf hr hs).trans (runMove_honkEnd (s := { s with sched := ms }) hp)
  · exact disabledMoveChangesNothing s _ ms (running_iff.2 ⟨hf, hr⟩) hs (by simp [Move.enabled, hp])

end Sys2Proof.Machine
end

section
/-! SUPPORT. The period of the overflows (41_audio R158, R160, R161): from cleared counters, the position in the period
is the number of ticks modulo its length. -/

namespace Sys2Proof.Machine

section
variable {s : State} {psc arr : Nat}

theorem ticks_counting (h : Counting psc arr s) : ∀ n, Counting psc arr (ticks n s)
  | 0 => h
  | n + 1 => (position_tick (ticks_counting h n)).1

/-- Counters that TIM_CLOCK_SET or an overflow has just cleared lie within their periods. -/
theorem counting_of_cleared {en : Bool} (ht : s.tim = ⟨en, some psc, some arr, 0, 0⟩)
    (hl : s.dma.state = .armed → s.lut ≠ none) : Counting psc arr s := by
  rw [Counting, ht]
  exact ⟨rfl, rfl, Nat.zero_le _, Nat.zero_le _, hl⟩

/-- The next multiple of `p` begins where the last place before it ends. -/
theorem succ_mod_eq_ite {p : Nat} (hp : 0 < p) (n : Nat) : (n + 1) % p = if n % p + 1 = p then 0 else n % p + 1 := by
  have hlt := Nat.mod_lt n hp
  rw [← Nat.mod_add_mod]
  split_ifs with h
  · rw [h, Nat.mod_self]
  · exact Nat.mod_eq_of_lt (by omega)

theorem position_ticks (h : Counting psc arr s) (h0 : position psc s.tim = 0) (n : Nat) :
    position psc (ticks n s).tim = n % ((psc + 1) * (arr + 1)) := by
  induction n with
  | zero => simpa [ticks] using h0
  | succ n ih =>
    rw [ticks, (position_tick (ticks_counting h n)).2.2, ih, succ_mod_eq_ite (by positivity)]

/-- From cleared counters, the overflows are the ticks whose number is a multiple of the period (41_audio R160). -/
theorem overflowsNow_ticks_iff (h : Counting psc arr s) (h0 : position psc s.tim = 0) (n : Nat) :
    overflowsNow (ticks n s) = true ↔ (n + 1) % ((psc + 1) * (arr + 1)) = 0 := by
  rw [(position_tick (ticks_counting h n)).2.1, position_ticks h h0, succ_mod_eq_ite (by positivity)]
  simp

theorem overflowCount_eq_div (h : Counting psc arr s) (h0 : position psc s.tim = 0) (n : Nat) :
    overflowCount n s = n / ((psc + 1) * (arr + 1)) := by
  induction n with
  | zero => simp [overflowCount]
  | succ n ih =>
    simp only [overflowCount, ih, Nat.succ_div, Nat.dvd_iff_mod_eq_zero, overflowsNow_ticks_iff h h0]

end

/-- Settles O39: cleared counters are at position 0. -/
theorem overflowsArePeriodic : Obligations.OverflowsArePeriodic := by
  unfold Obligations.OverflowsArePeriodic
  intro s psc arr ht hl n
  have hc := counting_of_cleared ht hl
  have h0 : position psc s.tim = 0 := by simp [position, ht]
  exact ⟨overflowsNow_ticks_iff hc h0 n, overflowCount_eq_div hc h0 n⟩

/-- Settles O40: a TIM_CLOCK_SET that answers OK clears the counters. -/
theorem clockSetRestartsPeriod : Obligations.ClockSetRestartsPeriod := by
  unfold Obligations.ClockSetRestartsPeriod
  intro s t psc arr _ hl hx hreply
  by_cases hok : timerOperandsOk s.cfg psc arr = true
  · obtain rfl := Host.Outcome.next.inj ((execTimClockSet_of_ok hok).symm.trans hx)
    exact ⟨rfl, overflowsNow_ticks_iff (counting_of_cleared rfl hl) (by simp [position])⟩
  · obtain rfl := Host.Outcome.next.inj ((execTimClockSet_of_range hok).symm.trans hx)
    cases hreply

end Sys2Proof.Machine
end

section
/-! SUPPORT. The table LUT_INIT writes (41_audio R148 to R152): each entry as a rounded real number, and its symmetries
from those of the sine. -/

namespace Sys2Proof.Machine

open Real

section
variable {c : Config} {i : Nat}

/-- The real number x_i of 41_audio R148. -/
noncomputable def sinePoint (f i : Nat) : ℝ := (f : ℝ) / 2 * (sin (π * i / 50) + 1)

/-- Of the constraints of 00_scope R7, those on FULL_SCALE alone. -/
theorem Config.fullScale_of_wf (h : c.wf = true) : 1 ≤ c.fullScale ∧ c.fullScale < 2 ^ c.sampleBits := by
  simp only [Config.wf, Bool.and_eq_true, decide_eq_true_eq] at h
  tauto

/-- Apart from the ties, an entry is the floor of x_i + 1/2 (41_audio R149). -/
theorem lutEntry_eq_floor (h : c.wf = true) (hi : i < 100) (ht : ¬ ((i = 0 ∨ i = 50) ∧ c.fullScale % 2 = 1)) :
    (lutEntry c i : ℤ) = ⌊sinePoint c.fullScale i + 1 / 2⌋ := by
  rw [lutEntry, if_neg (by tauto), if_neg (by tauto)]
  exact roundedEntry_eq_floor (Config.fullScale_of_wf h).1 hi

theorem lutEntry_tie_zero (h : c.fullScale % 2 = 1) : lutEntry c 0 = c.lutTie0 := by
  simp [lutEntry, h]

theorem lutEntry_tie_fifty (h : c.fullScale % 2 = 1) : lutEntry c 50 = c.lutTie50 := by
  simp [lutEntry, h]

/-! ## The symmetries of the sine -/

theorem sinePoint_quarter (f : Nat) : sinePoint f 25 = f := by
  rw [sinePoint, show π * (25 : ℕ) / 50 = π / 2 by push_cast; ring, sin_pi_div_two]
  ring

theorem sinePoint_three_quarters (f : Nat) : sinePoint f 75 = 0 := by
  rw [sinePoint, show π * (75 : ℕ) / 50 = π / 2 + π by push_cast; ring, sin_add_pi, sin_pi_div_two]
  ring

theorem sinePoint_mirror (f : Nat) (hi : i ≤ 50) : sinePoint f (50 - i) = sinePoint f i := by
  rw [sinePoint, Nat.cast_sub hi, show π * ((50 : ℕ) - i) / 50 = π - π * i / 50 by push_cast; ring, sin_pi_sub,
    sinePoint]

theorem sinePoint_opposite (f : Nat) (hi : i ≤ 100) : sinePoint f (100 - i) = f - sinePoint f i := by
  rw [sinePoint, Nat.cast_sub hi, show π * ((100 : ℕ) - i) / 50 = 2 * π - π * i / 50 by push_cast; ring,
    sin_two_pi_sub, sinePoint]
  ring

/-- Rounded with halves up, two numbers whose sum is an integer have that sum, if neither lies halfway. -/
theorem floor_sub_add_half {x : ℝ} (f : ℤ) (hx : ∀ m : ℤ, x + 1 / 2 ≠ m) :
    ⌊(f : ℝ) - x + 1 / 2⌋ = f - ⌊x + 1 / 2⌋ := by
  have hlt : (⌊x + 1 / 2⌋ : ℝ) < x + 1 / 2 := lt_of_le_of_ne (Int.floor_le _) fun h => hx _ h.symm
  have hgt := Int.lt_floor_add_one (x + 1 / 2)
  rw [Int.floor_eq_iff]
  push_cast
  constructor <;> linarith

/-! ## The symmetries of the table -/

theorem lutEntry_quarter (h : c.wf = true) : lutEntry c 25 = c.fullScale := by
  zify
  rw [lutEntry_eq_floor h (by omega) (by omega), sinePoint_quarter, Int.floor_eq_iff]
  push_cast
  constructor <;> linarith

theorem lutEntry_three_quarters (h : c.wf = true) : lutEntry c 75 = 0 := by
  zify
  rw [lutEntry_eq_floor h (by omega) (by omega), sinePoint_three_quarters]
  norm_num

theorem lutEntry_mirror (h : c.wf = true) (h1 : 1 ≤ i) (h2 : i ≤ 49) : lutEntry c (50 - i) = lutEntry c i := by
  zify
  rw [lutEntry_eq_floor h (by omega) (by omega), lutEntry_eq_floor h (by omega) (by omega),
    sinePoint_mirror _ (by omega)]

theorem lutEntry_opposite (h : c.wf = true) (h1 : 1 ≤ i) (h2 : i ≤ 49) :
    lutEntry c (100 - i) + lutEntry c i = c.fullScale := by
  have hround := floor_sub_add_half (c.fullScale : ℤ) (no_tie (Config.fullScale_of_wf h).1 h1 h2)
  push_cast at hround
  zify
  rw [lutEntry_eq_floor h (by omega) (by omega), lutEntry_eq_floor h (by omega) (by omega),
    sinePoint_opposite _ (by omega)]
  exact eq_sub_iff_add_eq.1 hround

/-! ## LUT_INIT -/

theorem execLutInit_first {s : State} (hl : s.lut = none) :
    exec .lutInit s = .next { s with lut := some (lutTable s.cfg), reply := some ⟨.ok, none⟩ } := by
  simp [exec, execLutInit, hl, returns]

theorem execLutInit_again {s : State} (hl : s.lut ≠ none) : exec .lutInit s = .next (refusedFor .lutReinit s) := by
  obtain ⟨T, hT⟩ := Option.ne_none_iff_exists'.1 hl
  simp [exec, execLutInit, hT, refuse_eq_refusedFor]

end

/-- Settles O31: the table is `lutTable`, entry by entry. -/
theorem lutInitResult : Obligations.LutInitResult := by
  unfold Obligations.LutInitResult
  refine ⟨fun _ _ _ _ => rfl, fun s => ⟨fun hc hl => ⟨lutTable s.cfg, execLutInit_first hl, fun i => ?_⟩,
    execLutInit_again⟩⟩
  rw [lutTable_get]
  have hle := lutEntry_le hc i
  refine ⟨?_, ?_, fun ht => ?_, hle, hle.trans_lt (Config.fullScale_of_wf hc).2⟩
  · rintro rfl
    exact lutEntry_tie_zero
  · rintro rfl
    exact lutEntry_tie_fifty
  · exact lutEntry_eq_floor hc i.isLt (fun h => ht (h.imp_left fun h => h.imp Fin.ext Fin.ext))

/-- Settles O32: the table is `lutTable`, whose entries have the symmetries. -/
theorem lutSymmetry : Obligations.LutSymmetry := by
  unfold Obligations.LutSymmetry
  intro s t T hc hl hx hT
  obtain rfl := Host.Outcome.next.inj ((execLutInit_first hl).symm.trans hx)
  obtain rfl := Option.some.inj hT
  have hmax : (lutTable s.cfg)[25] = s.cfg.fullScale := (lutTable_get s.cfg 25).trans (lutEntry_quarter hc)
  have hmin : (lutTable s.cfg)[75] = 0 := (lutTable_get s.cfg 75).trans (lutEntry_three_quarters hc)
  refine ⟨hmax, hmin, fun i => ?_, fun i j k h1 h2 hj hk => ?_⟩
  · rw [hmax, hmin, lutTable_get]
    exact ⟨Nat.zero_le _, lutEntry_le hc i⟩
  · rw [lutTable_get, lutTable_get, lutTable_get, hj, hk]
    exact ⟨lutEntry_mirror hc h1 h2, lutEntry_opposite hc h1 h2⟩

end Sys2Proof.Machine
end

section
/-! SUPPORT. The stream of samples (41_audio R166, R167) and the whole honk (41_audio R174): what `n` ticks with `k`
overflows among them leave in the DMA and the DAC. -/

namespace Sys2Proof.Machine

section
variable {T : Vector Nat tableLen} {s t : State} {k : Nat}

/-- The timer is configured, the table is `T` and the DMA is ARMED: every overflow transfers an entry of `T`. -/
structure Streaming (T : Vector Nat tableLen) (s : State) : Prop where
  configured : s.tim.psc ≠ none ∧ s.tim.arr ≠ none
  table : s.lut = some T
  armed : s.dma.state = .armed

theorem TickKeeps.streaming (h : TickKeeps s t) (hs : Streaming T s) : Streaming T t :=
  ⟨by rw [h.psc, h.arr]; exact hs.configured, h.lut.trans hs.table, h.dmaState.trans hs.armed⟩

/-- A tick of a configured timer that is no overflow moves the counters alone. -/
theorem tick_counters_only (hcfg : s.tim.psc ≠ none ∧ s.tim.arr ≠ none) (ho : overflowsNow s = false) :
    tick s = { s with tim := (tick s).tim } := by
  obtain ⟨psc, hp⟩ := Option.ne_none_iff_exists'.1 hcfg.1
  obtain ⟨arr, ha⟩ := Option.ne_none_iff_exists'.1 hcfg.2
  obtain ⟨-, h⟩ | ⟨-, -, h⟩ := tick_counting hp ha ho <;> rw [h]

/-- An overflow of a configured timer does not fault where there is a table. -/
theorem tick_overflow_ok (hcfg : s.tim.psc ≠ none ∧ s.tim.arr ≠ none) (hl : s.lut ≠ none)
    (ho : overflowsNow s = true) : overflowed { s with tim := { s.tim with pcnt := 0, cnt := 0 } } = .ok (tick s) := by
  obtain ⟨psc, hp⟩ := Option.ne_none_iff_exists'.1 hcfg.1
  obtain ⟨arr, ha⟩ := Option.ne_none_iff_exists'.1 hcfg.2
  obtain ⟨u, hu⟩ := overflowed_ok (s := { s with tim := { s.tim with pcnt := 0, cnt := 0 } }) fun _ => hl
  rw [tick_overflow hp ha ho, hu, settle]

/-- An overflow moves entry `i` to the DAC and the index to `i + 1`; `i` is the index, if there is one (log 15). -/
theorem Streaming.tick_of_overflow (hs : Streaming T s) (ho : overflowsNow s = true) :
    ∃ i : Fin tableLen, (∀ j, s.dma.idx = some j → i = j) ∧
      (tick s).dma = ⟨.armed, some (i + 1)⟩ ∧ (tick s).dac = ⟨s.dac.en, some T[i]⟩ := by
  have hmoved := tick_overflow_ok hs.configured (by simp [hs.table]) ho
  rw [overflowed, if_pos hs.armed] at hmoved
  obtain ⟨T', i, d, hT, hi, ht⟩ := transferred_cases hmoved
  obtain rfl := Option.some.inj (hT.symm.trans hs.table)
  exact ⟨i, fun j hj => (hi j hj).1, by rw [ht, hs.armed], by rw [ht]⟩

/-- What `k` transfers after `s` leave in `t`: none, the DMA and the DAC as they were; else the last entry moved in the
DAC and the index behind it, `k - 1` places on from the index of `s`, if it has one (log 15). -/
def Transferred (T : Vector Nat tableLen) (s : State) : Nat → State → Prop
  | 0, t => t.dma = s.dma ∧ t.dac = s.dac
  | k + 1, t => ∃ i : Fin tableLen, (∀ j : Fin tableLen, s.dma.idx = some j → (i : ℕ) = (j + k) % 100) ∧
      t.dma = ⟨.armed, some (i + 1)⟩ ∧ t.dac = ⟨s.dac.en, some T[i]⟩

theorem Transferred.tick_of_not_overflow (h : Transferred T s k t) (ht : Streaming T t) (ho : overflowsNow t = false) :
    Transferred T s k (tick t) := by
  have hcounted := tick_counters_only ht.configured ho
  have hdma : (tick t).dma = t.dma := congrArg (·.dma) hcounted
  have hdac : (tick t).dac = t.dac := congrArg (·.dac) hcounted
  cases k with
  | zero => exact ⟨hdma.trans h.1, hdac.trans h.2⟩
  | succ k =>
    obtain ⟨i, hi, h1, h2⟩ := h
    exact ⟨i, hi, hdma.trans h1, hdac.trans h2⟩

theorem Transferred.tick_of_overflow (h : Transferred T s k t) (ht : Streaming T t) (ho : overflowsNow t = true) :
    Transferred T s (k + 1) (tick t) := by
  obtain ⟨i, hi, hdma, hdac⟩ := ht.tick_of_overflow ho
  cases k with
  | zero =>
    obtain ⟨h1, h2⟩ := h
    refine ⟨i, fun j hj => ?_, hdma, by rw [hdac, h2]⟩
    rw [hi j (by rw [h1, hj]), Nat.add_zero, Nat.mod_eq_of_lt j.isLt]
  | succ k =>
    obtain ⟨l, hl, h1, h2⟩ := h
    refine ⟨i, fun j hj => ?_, hdma, by rw [hdac, h2]⟩
    rw [hi (l + 1) (by rw [h1]), Fin.val_add, hl j hj]
    exact Nat.mod_add_mod _ _ _

/-- From a streaming state, the transfers are the overflows. -/
theorem ticks_transferred (hs : Streaming T s) : ∀ n, Transferred T s (overflowCount n s) (ticks n s)
  | 0 => ⟨rfl, rfl⟩
  | n + 1 => by
    have ht := (ticks_keeps s n).streaming hs
    rw [overflowCount, ticks]
    cases ho : overflowsNow (ticks n s) with
    | false => exact (ticks_transferred hs n).tick_of_not_overflow ht ho
    | true => exact (ticks_transferred hs n).tick_of_overflow ht ho

end

/-- Settles O41: by whether a transfer came. -/
theorem streamLaw : Obligations.StreamLaw := by
  unfold Obligations.StreamLaw
  intro s T i psc arr hp ha hT hd n
  have hs : Streaming T s := ⟨by simp [hp, ha], hT, by rw [hd]⟩
  have hidx : s.dma.idx = some i := by rw [hd]
  have hn := ticks_transferred hs n
  refine ⟨((ticks_keeps s n).streaming hs).armed, ?_⟩
  cases hk : overflowCount n s with
  | zero =>
    rw [hk] at hn
    obtain ⟨hdma, hdac⟩ := hn
    exact ⟨⟨i, by rw [hdma, hidx], (Nat.mod_eq_of_lt i.isLt).symm⟩, fun _ => hdac, fun k h => absurd h (by simp)⟩
  | succ k =>
    rw [hk] at hn
    obtain ⟨l, hl, hdma, hdac⟩ := hn
    refine ⟨⟨l + 1, by rw [hdma], ?_⟩, fun h => absurd h (by simp), fun k' h => ?_⟩
    · rw [Fin.val_add, hl i hidx]
      exact Nat.mod_add_mod _ _ _
    · obtain rfl := Nat.succ.inj h
      rw [← hl i hidx]
      exact ⟨l.isLt, hdac⟩

/-- HONK with a table arms the DMA, begins the honk and leaves the motor path, the timer and the DAC alone (41_audio
R172). -/
theorem execHonk_begins {s t : State} (hl : s.lut ≠ none) (h : exec .honk s = .next t) :
    t.dma.state = .armed ∧ t.phase = .honkBusy ∧
      t = { s with phase := t.phase, dma := t.dma, draws := t.draws, reply := t.reply } := by
  cases ha : armed s with
  | error k => exact absurd (armed_error ha).2 hl
  | ok u =>
    obtain rfl := Host.Outcome.next.inj ((execHonk_of_ok ha).symm.trans h)
    obtain ⟨-, ⟨hd, rfl⟩ | ⟨-, rfl⟩⟩ := armed_cases ha
    · exact ⟨hd, rfl, rfl⟩
    · exact ⟨rfl, rfl, rfl⟩

/-- Settles O21: HONK arms, the ticks transfer as `ticks_transferred` says, and the end step disarms. -/
theorem honkLeavesMotorsAlone : Obligations.HonkLeavesMotorsAlone := by
  unfold Obligations.HonkLeavesMotorsAlone
  intro s t n T hT hcfg hx
  obtain ⟨harm, hbusy, ht⟩ := execHonk_begins (by simp [hT]) hx
  have hk := ticks_keeps t n
  have hn : Transferred T t (overflowCount n t) (ticks n t) := by
    cases n with
    | zero => exact ⟨rfl, rfl⟩
    | succ n => exact ticks_transferred ⟨by rw [ht]; exact hcfg n.succ_ne_zero, by rw [ht]; exact hT, harm⟩ _
  refine ⟨_, runMove_honkEnd (hk.phase.trans hbusy), ?_, ?_, ?_, rfl, rfl, fun h0 => ?_, fun h0 => ?_⟩
  · exact hk.car.trans (by rw [ht])
  · exact hk.pwm.trans (by rw [ht])
  · exact hk.gpio.trans (by rw [ht])
  · rw [h0] at hn
    exact hn.2.trans (by rw [ht])
  · obtain ⟨k, hk⟩ := Nat.exists_eq_succ_of_ne_zero h0
    rw [hk] at hn
    obtain ⟨i, -, hdma, hdac⟩ := hn
    exact ⟨i, by simp [honkEnd, hdma], by simp [honkEnd, hdac]⟩

end Sys2Proof.Machine
end

section
/-! SUPPORT. The end of a honk in a weakly fair run (41_audio R173, 00_scope R10): until the end step is taken, only
ticks move the machine, and they do not fault. -/

namespace Sys2Proof.Machine

section
variable {s t : State} {states : Nat → State} {events : Nat → Event} {k : Nat}

/-- A tick of a configured timer faults in no state with a table. -/
theorem tick_running (hcfg : s.tim.psc ≠ none ∧ s.tim.arr ≠ none) (hl : s.lut ≠ none) :
    (tick s).running = s.running := by
  cases ho : overflowsNow s with
  | false => exact (congrArg State.running (tick_counters_only hcfg ho)).trans rfl
  | true =>
    have hmoved := tick_overflow_ok hcfg hl ho
    unfold overflowed at hmoved
    split_ifs at hmoved
    · obtain ⟨T, i, d, -, -, ht⟩ := transferred_cases hmoved
      rw [ht]; rfl
    · rw [← Except.ok.inj hmoved]; rfl

/-- A honk that nothing can stop: what its ticks read is there. -/
structure HonkGoesOn (s : State) : Prop where
  running : s.running = true
  busy : s.phase = .honkBusy
  table : s.lut ≠ none
  configured : s.tim.en = true → s.tim.psc ≠ none ∧ s.tim.arr ≠ none

theorem TimerOk.configured {w : Nat} {t : Timer} (h : TimerOk w t) (hen : t.en = true) :
    t.psc ≠ none ∧ t.arr ≠ none := by
  unfold TimerOk at h
  split at h
  · next hp ha => simp [hp, ha]
  · exact absurd (h.1.symm.trans hen) (by decide)
  · exact h.elim

theorem MachineInv.honkGoesOn (h : MachineInv s) (hr : s.running = true) (hp : s.phase = .honkBusy) : HonkGoesOn s :=
  ⟨hr, hp, Option.isSome_iff_ne_none.1 (h.armed (h.honking hp)).1, h.timer.configured⟩

theorem HonkGoesOn.tick (h : HonkGoesOn s) (hen : s.tim.en = true) : HonkGoesOn (tick s) := by
  have hk := tick_keeps s
  exact ⟨(tick_running (h.configured hen) h.table).trans h.running, hk.phase.trans h.busy, hk.lut ▸ h.table,
    fun _ => by rw [hk.psc, hk.arr]; exact h.configured hen⟩

/-- Every event but the honk end step lets the honk go on. -/
theorem HonkGoesOn.leads {e : Event} (h : HonkGoesOn s) (hl : e.Leads s t) (he : e ≠ .move .honkEnd) :
    HonkGoesOn t := by
  obtain ⟨hrun, hbusy, htable, hcfg⟩ := h
  cases e with
  | move m =>
    obtain ⟨-, hp, -⟩ | ⟨-, hp, -⟩ | ⟨rfl, -⟩ | ⟨-, hen, rfl⟩ := leads_cases hl
    · exact absurd (hbusy.symm.trans hp) (by decide)
    · exact absurd hbusy hp
    · exact absurd rfl he
    · exact HonkGoesOn.tick (s := { s with sched := [] }) ⟨hrun, hbusy, htable, hcfg⟩ hen
  | sends b => obtain ⟨-, rfl⟩ := hl; exact ⟨hrun, hbusy, htable, hcfg⟩
  | issues r => obtain ⟨-, rfl⟩ := hl; exact ⟨hrun, hbusy, htable, hcfg⟩
  | nothing => obtain rfl := hl; exact ⟨hrun, hbusy, htable, hcfg⟩

theorem run_honkGoesOn (hrun : IsRun states events) (hk : HonkGoesOn (states k))
    (hno : ∀ j, k ≤ j → events j ≠ .move .honkEnd) {n : Nat} (hkn : k ≤ n) : HonkGoesOn (states n) := by
  induction n, hkn using Nat.le_induction with
  | base => exact hk
  | succ n hkn ih => exact ih.leads (hrun n) (hno n hkn)

/-- A honk that went on for ever would stay enabled to end. -/
theorem fairRun_takes_honkEnd (hf : WeaklyFair states events) (hk : HonkGoesOn (states k)) :
    ∃ j, k ≤ j ∧ events j = .move .honkEnd := by
  by_contra hno
  refine hno (hf.honkEnd k fun j hj => ?_)
  have hj := run_honkGoesOn hf.run hk (fun i hi he => hno ⟨i, hi, he⟩) hj
  simp [Move.enabled, hj.running, hj.busy]

end

/-- Settles O52: the honk end step is taken, and it is `honkEnd`. -/
theorem fairRunEndsHonk : Obligations.FairRunEndsHonk := by
  unfold Obligations.FairRunEndsHonk
  intro states events k hf hinv hr hp
  obtain ⟨j, hj, he⟩ := fairRun_takes_honkEnd hf (hinv.honkGoesOn hr hp)
  have hend : (Event.move .honkEnd).Leads (states j) (states (j + 1)) := he ▸ hf.run j
  refine ⟨j, hj, he, ?_⟩
  rw [leads_honkEnd hend]
  exact ⟨rfl, rfl⟩

end Sys2Proof.Machine
end

section
/-! SUPPORT. The seven GPIO operations (42_gpio): the five configuration operations by what they share (R190), the latch
write, and the read. -/

namespace Sys2Proof.Machine

section
variable {s t : State} {i : Instr} {pin : PinName} {v : Nat} {q : PhysPin} {valid : Bool} {f : PinFields → PinFields}
  {write : PhysPin → (PinFields → PinFields) → State → Except Fault State}

/-! ## Writing a field -/

/-- After the change a pin is not as an unwritten one, and the same change again makes no difference to it. -/
structure SetsField (f : PinFields → PinFields) : Prop where
  ne_fresh : ∀ x, f x ≠ PinFields.fresh
  idem : ∀ x, f (f x) = f x

theorem SetsField.updatePin_again (h : SetsField f) (q : PhysPin) (s : State) :
    updatePin q f (updatePin q f s) = updatePin q f s := by
  have hpin : f ((updatePin q f s).pin q) = f (s.pin q) := by
    rw [pin_updatePin_same q f s (h.ne_fresh _), h.idem]
  have hgpio : storePin q (f ((updatePin q f s).pin q)) (updatePin q f s).gpio = (updatePin q f s).gpio := by
    rw [hpin]; exact storePin_storePin (h.ne_fresh _)
  exact congrArg (fun g => { s with gpio := g }) hgpio

theorem enableClock_again (p : Nat) (s : State) : enableClock p (enableClock p s) = enableClock p s :=
  congrArg (fun c => { s with clk := c }) insertPort_insertPort

theorem writeEnabling_again (hf : SetsField f) (h : writeEnabling q f s = .ok t) : writeEnabling q f t = .ok t := by
  obtain rfl := Except.ok.inj h
  calc writeEnabling q f (returns .ok (updatePin q f (enableClock q.port s)))
      = .ok (returns .ok (updatePin q f (updatePin q f (enableClock q.port (enableClock q.port s))))) := rfl
    _ = .ok (returns .ok (updatePin q f (enableClock q.port s))) := by
      rw [hf.updatePin_again, enableClock_again]

theorem writeClocked_again (hf : SetsField f) (h : writeClocked q f s = .ok t) : writeClocked q f t = .ok t := by
  unfold writeClocked at h
  split_ifs at h with hc
  obtain rfl := Except.ok.inj h
  calc writeClocked q f (returns .ok (updatePin q f s))
      = .ok (returns .ok (updatePin q f (updatePin q f s))) := if_pos hc
    _ = .ok (returns .ok (updatePin q f s)) := by rw [hf.updatePin_again]

/-! ## An operation that ends in a write -/

theorem exec_of_writeEnabling (hf : SetsField f) (hx : exec i s = .next (settle s (writeEnabling q f s))) :
    ∃ t, exec i s = .next t ∧ EnabledAndWritten q f s t := by
  obtain ⟨t, ht, hw⟩ := writeEnabling_spec q f s (hf.ne_fresh _)
  exact ⟨t, by rw [hx, ht, settle], hw⟩

theorem exec_of_writeClocked_on (hf : SetsField f) (hx : exec i s = .next (settle s (writeClocked q f s)))
    (hc : s.clockOn q.port = true) : ∃ t, exec i s = .next t ∧ WrittenOnly q f s t := by
  obtain ⟨t, ht, hw⟩ := writeClocked_on hc (hf.ne_fresh _)
  exact ⟨t, by rw [hx, ht, settle], hw⟩

theorem exec_of_writeClocked_off (hx : exec i s = .next (settle s (writeClocked q f s)))
    (hc : s.clockOn q.port = false) : exec i s = .next (faulted .gpioClockOff s) := by
  rw [hx, writeClocked_off hc, settle, raise_eq_faulted]

/-! ## The configuration operations -/

/-- A configuration operation on `pin` with value `v`: whether the value is valid, how the port clock enters, and the
field written (42_gpio R190, R192 to R196). -/
inductive ConfigSemantics (pin : PinName) (v : Nat) :
    Instr → Bool → (PhysPin → (PinFields → PinFields) → State → Except Fault State) → (PinFields → PinFields) →
    Prop where
  | mode : ConfigSemantics pin v (.gpioMode pin v) (validMode v) writeEnabling
    fun f => { f with mode := some (BitVec.ofNat 2 v) }
  | pull : ConfigSemantics pin v (.gpioPull pin v) (validPull v) writeClocked
    fun f => { f with pull := some (BitVec.ofNat 2 v) }
  | otype : ConfigSemantics pin v (.gpioOtype pin v) (validOtype v) writeClocked
    fun f => { f with otype := some (BitVec.ofNat 1 v) }
  | speed : ConfigSemantics pin v (.gpioSpeed pin v) (validSpeed v) writeClocked
    fun f => { f with speed := some (BitVec.ofNat 2 v) }
  | af : ConfigSemantics pin v (.gpioAf pin v) (validAf v) writeEnabling
    fun f => { f with af := some (BitVec.ofNat 4 v) }

theorem configSemantics_of_mem
    (hi : i ∈ [Instr.gpioMode pin v, .gpioPull pin v, .gpioOtype pin v, .gpioSpeed pin v, .gpioAf pin v]) :
    ∃ valid write f, ConfigSemantics pin v i valid write f := by
  simp only [List.mem_cons, List.not_mem_nil, or_false] at hi
  obtain rfl | rfl | rfl | rfl | rfl := hi
  exacts [⟨_, _, _, .mode⟩, ⟨_, _, _, .pull⟩, ⟨_, _, _, .otype⟩, ⟨_, _, _, .speed⟩, ⟨_, _, _, .af⟩]

theorem ConfigSemantics.setsField (h : ConfigSemantics pin v i valid write f) : SetsField f := by
  cases h <;> exact ⟨fun _ => by simp [PinFields.fresh], fun _ => rfl⟩

theorem ConfigSemantics.exec_eq (h : ConfigSemantics pin v i valid write f) (s : State) :
    exec i s = .next (gpioConfig pin valid s fun q => write q f s) := by
  cases h <;> rfl

theorem ConfigSemantics.exec_of_valid (h : ConfigSemantics pin v i valid write f)
    (hl : s.cfg.pinMap.lookup pin = some q) (hv : valid = true) : exec i s = .next (settle s (write q f s)) := by
  rw [h.exec_eq, gpioConfig, onPin_some hl, if_pos hv]

/-- Validation comes before the clock is looked at (42_gpio R190). -/
theorem ConfigSemantics.exec_of_invalid (h : ConfigSemantics pin v i valid write f)
    (hl : s.cfg.pinMap.lookup pin = some q) (hv : valid = false) : exec i s = .next (invalidated s) := by
  rw [h.exec_eq, gpioConfig, onPin_some hl, hv]
  rfl

/-- The result of an operation that enables the port clock, with the values up to `n` valid (42_gpio R190). -/
theorem ConfigSemantics.enabling_result {n : Nat} (h : ConfigSemantics pin v i (decide (v ≤ n)) writeEnabling f)
    (hl : s.cfg.pinMap.lookup pin = some q) :
    (v ≤ n → ∃ t, exec i s = .next t ∧ EnabledAndWritten q f s t) ∧
    (n + 1 ≤ v → exec i s = .next (invalidated s)) :=
  ⟨fun hv => exec_of_writeEnabling h.setsField (h.exec_of_valid hl (decide_eq_true hv)),
    fun hv => h.exec_of_invalid hl (decide_eq_false (Nat.not_le.2 hv))⟩

/-- The result of an operation that needs the port clock on, with the values up to `n` valid (42_gpio R190, R191). -/
theorem ConfigSemantics.clocked_result {n : Nat} (h : ConfigSemantics pin v i (decide (v ≤ n)) writeClocked f)
    (hl : s.cfg.pinMap.lookup pin = some q) :
    (v ≤ n → s.clockOn q.port = true → ∃ t, exec i s = .next t ∧ WrittenOnly q f s t) ∧
    (v ≤ n → s.clockOn q.port = false → exec i s = .next (faulted .gpioClockOff s)) ∧
    (n + 1 ≤ v → exec i s = .next (invalidated s)) :=
  ⟨fun hv => exec_of_writeClocked_on h.setsField (h.exec_of_valid hl (decide_eq_true hv)),
    fun hv => exec_of_writeClocked_off (h.exec_of_valid hl (decide_eq_true hv)),
    fun hv => h.exec_of_invalid hl (decide_eq_false (Nat.not_le.2 hv))⟩

/-- Status OK says that the operand is a pin, the value valid, and the write done. -/
theorem gpioConfig_ok {act : PhysPin → Except Fault State}
    (h : (gpioConfig pin valid s act).reply = some ⟨.ok, none⟩) :
    ∃ q, s.cfg.pinMap.lookup pin = some q ∧ valid = true ∧ act q = .ok (gpioConfig pin valid s act) := by
  cases hl : s.cfg.pinMap.lookup pin with
  | none =>
    rw [gpioConfig, onPin_none hl] at h
    cases h
  | some q =>
    rw [gpioConfig, onPin_some hl] at h ⊢
    cases valid with
    | false => cases h
    | true =>
      rw [if_pos rfl] at h ⊢
      cases hact : act q with
      | ok t => exact ⟨q, rfl, rfl, hact⟩
      | error k => rw [hact] at h; cases h

theorem ConfigSemantics.write_again (h : ConfigSemantics pin v i valid write f) (ht : write q f s = .ok t) :
    write q f t = .ok t := by
  have hf := h.setsField
  cases h with
  | mode | af => exact writeEnabling_again hf ht
  | pull | otype | speed => exact writeClocked_again hf ht

/-- After status OK the pin and the value are as good as before, and the write changes nothing (20_memory R57). -/
theorem ConfigSemantics.exec_again (h : ConfigSemantics pin v i valid write f) (hx : exec i s = .next t)
    (hok : t.reply = some ⟨.ok, none⟩) : exec i t = .next t := by
  have hcfg : t.cfg = s.cfg := (exec_keeps hx).cfg
  obtain rfl := Host.Outcome.next.inj ((h.exec_eq s).symm.trans hx)
  obtain ⟨q, hl, hv, hw⟩ := gpioConfig_ok hok
  rw [h.exec_of_valid (hcfg ▸ hl) hv, h.write_again hw, settle]

/-! ## GPIO_WRITE and GPIO_READ -/

theorem setsField_setOut (level : Bool) : SetsField (PinFields.setOut level) :=
  ⟨setOut_ne_fresh level, setOut_setOut level level⟩

/-- GPIO_WRITE is a write of the latch under the port clock (42_gpio R197). -/
theorem execGpioWrite_eq (hl : s.cfg.pinMap.lookup pin = some q) (level : Bool) :
    exec (.gpioWrite pin level) s = .next (settle s (writeClocked q (PinFields.setOut level) s)) := by
  rw [exec, execGpioWrite, onPin_some hl]
  cases hc : s.clockOn q.port with
  | true => simp [writeLatch_on level hc, writeClocked, hc]
  | false => simp [writeLatch_off level hc, writeClocked_off hc]

theorem execGpioRead_on (hl : s.cfg.pinMap.lookup pin = some q) (hc : s.clockOn q.port = true) :
    exec (.gpioRead pin) s =
      .next { s with draws := s.draws + 1, reply := some ⟨.ok, some (Config.pinLevel s.draws)⟩ } := by
  rw [exec, execGpioRead, onPin_some hl, if_pos hc, settle, returnsLevel]

theorem execGpioRead_off (hl : s.cfg.pinMap.lookup pin = some q) (hc : s.clockOn q.port = false) :
    exec (.gpioRead pin) s = .next (faulted .gpioClockOff s) := by
  rw [exec, execGpioRead, onPin_some hl, if_neg (by simp [hc]), settle, raise_eq_faulted]

/-- GPIO_WRITE's `b` above 1 is refused (30_encoding R81). -/
theorem decodeWrite_badWriteValue {c : Config} {id b : Nat} (h : decodePin c id = .ok pin) (hb : 2 ≤ b) :
    decodeWrite c id b = .error .badWriteValue := by
  have h0 : b ≠ 0 := by omega
  have h1 : b ≠ 1 := by omega
  simp [decodeWrite, h, h0, h1]

/-- A pin uses the function just written to it, and that only in mode alternate (42_gpio R196). -/
theorem usesFunction_of_af_written {n m : BitVec 4} (h : t.pin q = { s.pin q with af := some m }) :
    t.usesFunction q n = true ↔ (s.pin q).mode = some 0b10 ∧ n = m := by
  simp only [State.usesFunction, h, Bool.and_eq_true, decide_eq_true_eq, Option.some.injEq, eq_comm (a := m)]

end

/-- Settles O22: by whether the value is valid. -/
theorem gpioModeResult : Obligations.GpioModeResult := by
  unfold Obligations.GpioModeResult
  exact fun _ _ _ _ hl => ⟨fun _ _ hid => withPin_of_decodePin hid _, ConfigSemantics.mode.enabling_result hl⟩

/-- Settles O23: by whether the value is valid, then by the port clock. -/
theorem gpioPullResult : Obligations.GpioPullResult := by
  unfold Obligations.GpioPullResult
  exact fun _ _ _ _ hl => ⟨fun _ _ hid => withPin_of_decodePin hid _, ConfigSemantics.pull.clocked_result hl⟩

/-- Settles O24: by whether the value is valid, then by the port clock. -/
theorem gpioOtypeResult : Obligations.GpioOtypeResult := by
  unfold Obligations.GpioOtypeResult
  exact fun _ _ _ _ hl => ⟨fun _ _ hid => withPin_of_decodePin hid _, ConfigSemantics.otype.clocked_result hl⟩

/-- Settles O25: by whether the value is valid, then by the port clock. -/
theorem gpioSpeedResult : Obligations.GpioSpeedResult := by
  unfold Obligations.GpioSpeedResult
  exact fun _ _ _ _ hl => ⟨fun _ _ hid => withPin_of_decodePin hid _, ConfigSemantics.speed.clocked_result hl⟩

/-- Settles O26: by whether the value is valid; the function used is read off the written pin. -/
theorem gpioAfResult : Obligations.GpioAfResult := by
  unfold Obligations.GpioAfResult
  intro s pin v q hl
  obtain ⟨hvalid, hinvalid⟩ := ConfigSemantics.af.enabling_result (v := v) hl
  refine ⟨fun _ _ hid => withPin_of_decodePin hid _, fun hv => ?_, hinvalid⟩
  obtain ⟨t, hx, ⟨hpin, hother⟩, hrest⟩ := hvalid hv
  exact ⟨t, hx, ⟨⟨hpin, hother⟩, hrest⟩, fun _ => usesFunction_of_af_written hpin⟩

/-- Settles O27: by the port clock. -/
theorem gpioWriteResult : Obligations.GpioWriteResult := by
  unfold Obligations.GpioWriteResult
  intro s pin level q hl
  exact ⟨fun _ _ hid => decodeWrite_of_decodePin hid level, fun _ _ _ hid => decodeWrite_badWriteValue hid,
    exec_of_writeClocked_on (setsField_setOut level) (execGpioWrite_eq hl level),
    exec_of_writeClocked_off (execGpioWrite_eq hl level)⟩

/-- Settles O28: by the port clock. -/
theorem gpioReadResult : Obligations.GpioReadResult := by
  unfold Obligations.GpioReadResult
  exact fun _ _ _ hl => ⟨fun _ _ _ hid => withPin_of_decodePin hid _, execGpioRead_on hl, execGpioRead_off hl⟩

/-- Settles O30: status OK says the write was done, and the write again changes nothing. -/
theorem configurationIsIdempotent : Obligations.ConfigurationIsIdempotent := by
  unfold Obligations.ConfigurationIsIdempotent
  intro s t pin v i hi hx hok
  obtain ⟨valid, write, f, op⟩ := configSemantics_of_mem hi
  exact op.exec_again hx hok

end Sys2Proof.Machine
end

section
/-! SUPPORT. Direction pins that share a physical pin (10_state R39, 60_exceptions R229), the stop after a fault or a
refusal (R228), and the ticks of a weakly fair run (R247). -/

namespace Sys2Proof.Machine

/-- Settles O13: the reflection writes the latches in the order of R229, after either kind of operation, and neither
needs the pins distinct. -/
theorem sharedDirectionPins : Obligations.SharedDirectionPins := by
  unfold Obligations.SharedDirectionPins
  intro s t i hi hc h
  rcases hi with hm | ⟨rfl, hp⟩
  · exact exec_motor_reflects hm hc h
  · exact execBootDone_reflects hp hc h

/-! ## The stop -/

section
variable {s : State}

theorem step_of_fault {k : Fault} (hf : s.fault = some k) : step s = .fault k := by
  simp [step, advance, hf]

theorem step_of_refusal {r : Refusal} (hf : s.fault = none) (hr : s.refusal = some r) : step s = .refused r := by
  simp [step, advance, hf, hr]

end

/-- Settles O45: by which record there is; a fault comes before a refusal. -/
theorem stopIsFinal : Obligations.StopIsFinal := by
  unfold Obligations.StopIsFinal
  exact fun _ => ⟨fun _ => step_of_fault, fun _ => step_of_refusal⟩

/-! ## Ticks of a run -/

section
variable {states : Nat → State} {events : Nat → Event} {k : Nat}

/-- Along a run a started timer stays started (10_state R31). -/
theorem run_timEn (hrun : IsRun states events) (hk : (states k).tim.en = true) {n : Nat} (hkn : k ≤ n) :
    (states n).tim.en = true := by
  induction n, hkn using Nat.le_induction with
  | base => exact hk
  | succ n _ ih => exact leads_timEn (hrun n) ih

end

/-- Settles O53: from point `k` on a tick is enabled at every point, so fairness from the later of `k` and `n` gives
one. -/
theorem fairRunTicksForever : Obligations.FairRunTicksForever := by
  unfold Obligations.FairRunTicksForever
  intro states events k hf hr hen n
  have henabled : ∀ j, k ≤ j → Move.tick.enabled (states j) = true := fun j hj => by
    simp [Move.enabled, hr j hj, run_timEn hf.run hen hj]
  obtain ⟨j, hj, he⟩ := hf.tick (max k n) fun j hj => henabled j (le_of_max_le_left hj)
  exact ⟨j, le_of_max_le_right hj, he⟩

end Sys2Proof.Machine
end

section
/-! SUPPORT. The values read after reset (70_reset_and_hazards R260). -/

namespace Sys2Proof.Machine

section
variable (c : Config)

/-- The pin list after reset is empty, and an unlisted pin reads as fresh (10_state R35). -/
@[simp] theorem pin_resetWith (q : PhysPin) : (State.resetWith c).pin q = PinFields.fresh := rfl

/-- The list of running port clocks after reset is empty (10_state R37). -/
@[simp] theorem clockOn_resetWith (p : Nat) : (State.resetWith c).clockOn p = false :=
  decide_eq_false List.not_mem_nil

end

/-- Settles O48: the pins and the port clocks are read from empty lists; every other row of the table is a field, or for
`refused` the mark read from one. -/
theorem resetValues : Obligations.ResetValues := by
  unfold Obligations.ResetValues
  intro c
  exact ⟨State.resetWith c, rfl, rfl, rfl, rfl, rfl, rfl, rfl, rfl, rfl, pin_resetWith c,
    clockOn_resetWith c, rfl, rfl, rfl⟩

end Sys2Proof.Machine
end

section
/-! SUPPORT. The encodings (30_encoding R70 to R81): decoding undoes encoding, and what a record decodes to
re-encodes. -/

namespace Sys2Proof

section
variable {c : Config} {r : CtrlRecord} {i : Instr}

/-! ## Units -/

theorem exists_of_isToken {u : List Byte} (h : isToken u = true) : ∃ op, u = [op] ∧ op ∈ tokenCodes := by
  match u with
  | [op] => exact ⟨op, rfl, List.contains_iff_mem.1 h⟩

/-- TOKEN_MAP holds the eight token codes and no other byte (30_encoding R73). -/
theorem tokenOf_eq_none {op : Byte} (h : op ∉ tokenCodes) : tokenOf op = none := by
  simp only [tokenCodes, List.mem_cons, List.not_mem_nil, or_false, not_or] at h
  simp only [tokenOf, h, if_false]

/-- A unit that is no token is read as UNRECOGNIZED (30_encoding R72). -/
theorem decodeUnit_of_not_token {u : List Byte} (h : isToken u = false) : decodeUnit u = .unrecognized u := by
  match u with
  | [] => rfl
  | [op] =>
    have hop : op ∉ tokenCodes := by simpa [isToken] using h
    rw [decodeUnit_singleton, tokenOf_eq_none hop, Option.getD_none]
  | _ :: _ :: _ => rfl

/-- A token encodes what it decodes to, and any other unit is carried as it is (30_encoding R72, R73). -/
theorem encode_decodeUnit (u : List Byte) : encode (decodeUnit u) = .unit u := by
  cases h : isToken u with
  | false =>
    rw [decodeUnit_of_not_token h]
    rfl
  | true =>
    obtain ⟨op, rfl, hop⟩ := exists_of_isToken h
    simp only [tokenCodes, List.mem_cons, List.not_mem_nil, or_false] at hop
    obtain rfl | rfl | rfl | rfl | rfl | rfl | rfl | rfl := hop <;> rfl

/-! ## Records -/

theorem decodeWork_encode (h : i.wellFormed c = true) : decodeWork c (encode i) = .ok i := by
  cases i with
  | drive | accelerate | brake | stop | turnLeft | turnRight | reverse | honk => rfl
  | unrecognized u => exact congrArg Except.ok (decodeUnit_of_not_token (by simpa [Instr.wellFormed] using h))
  | gpioMode p | gpioPull p | gpioOtype p | gpioSpeed p | gpioAf p | gpioRead p => exact withPin_pinId h _
  | gpioWrite p l =>
    cases l with
    | false => exact decodeWrite_of_decodePin (decodePin_pinId h) false
    | true => exact decodeWrite_of_decodePin (decodePin_pinId h) true
  | lutInit | dacEnable | timClockSet | timStart | dmaArm | dmaDisarm | bootDone => rfl

theorem CtrlDecodes.wellFormed (h : CtrlDecodes c r i) : i.wellFormed c = true := by
  cases h with
  | gpioMode p hs hn | gpioPull p hs hn | gpioOtype p hs hn | gpioSpeed p hs hn | gpioAf p hs hn
  | gpioWrite p l hs hn | gpioRead p hs hn => exact hn
  | lutInit | dacEnable | timClockSet | timStart | dmaArm | dmaDisarm | bootDone => rfl

/-- The encoding of what a record decodes to is a record with its selector (30_encoding R79). -/
theorem CtrlDecodes.encode_sel (h : CtrlDecodes c r i) : ∃ r', encode i = .ctrl r' ∧ r'.sel = r.sel := by
  cases h <;> exact ⟨_, rfl, Eq.symm ‹_›⟩

end

/-- Settles O57: by the operation; a pin identifier is read back from its number, and UNRECOGNIZED holds no token. -/
theorem decodeEncodeAgree : Obligations.DecodeEncodeAgree := by
  unfold Obligations.DecodeEncodeAgree
  exact fun _ _ => decodeWork_encode

/-- Settles O58: a record's operation is well-formed, so its encoding decodes to it. -/
theorem encodeDecodeAgree : Obligations.EncodeDecodeAgree := by
  unfold Obligations.EncodeDecodeAgree
  refine ⟨encode_decodeUnit, fun c r i h => ?_⟩
  have hd := decodeCtrl_ok h
  obtain ⟨r', he, hsel⟩ := hd.encode_sel
  have hback := decodeWork_encode hd.wellFormed
  rw [he] at hback
  exact ⟨hd.wellFormed, r', he, hsel, hback⟩

/-- Settles O59: by reading the words; none of them depends on the parameters. -/
theorem sampleWordsDecode : Obligations.SampleWordsDecode := by
  unfold Obligations.SampleWordsDecode
  exact ⟨rfl, rfl, rfl, rfl, rfl, rfl⟩

end Sys2Proof
end

section
/-! SUPPORT. An operand that is no PinName (30_encoding R81; 60_exceptions R227): the decoder and the seven GPIO
operations refuse it before anything else. -/

namespace Sys2Proof

section
variable {c : Config} {n : Nat}

theorem decodePin_unknown (h : c.pinMap.others.length ≤ n) : decodePin c (n + 7) = .error .badPin := by
  simp [decodePin, pinNameOf, PinName.isName, Nat.not_lt.2 h]

theorem withPin_unknown (h : c.pinMap.others.length ≤ n) (f : PinName → Instr) :
    withPin c (n + 7) f = .error .badPin := by
  rw [withPin, decodePin_unknown h]

theorem decodeWrite_unknown (h : c.pinMap.others.length ≤ n) (b : Nat) :
    decodeWrite c (n + 7) b = .error .badPin := by
  rw [decodeWrite, decodePin_unknown h]

theorem decodeCtrl_unknown (h : c.pinMap.others.length ≤ n) {sel : Byte}
    (hsel : sel ∈ ([0x01, 0x02, 0x03, 0x04, 0x05, 0x06, 0x07] : List Byte)) (a b : Nat) :
    decodeCtrl c ⟨sel, n + 7, a, b⟩ = .error .badPin := by
  simp only [List.mem_cons, List.not_mem_nil, or_false] at hsel
  obtain rfl | rfl | rfl | rfl | rfl | rfl | rfl := hsel
  exacts [withPin_unknown h _, withPin_unknown h _, withPin_unknown h _, withPin_unknown h _, withPin_unknown h _,
    decodeWrite_unknown h _, withPin_unknown h _]

theorem lookup_unknown (h : c.pinMap.others.length ≤ n) : c.pinMap.lookup (.other n) = none :=
  List.getElem?_eq_none h

end

end Sys2Proof

namespace Sys2Proof.Machine

/-- The seven GPIO operations refuse an operand that PIN_MAP does not hold (log 29). -/
theorem exec_gpio_unknown {s : State} {pin : PinName} {v : Nat} {level : Bool} {i : Instr}
    (hl : s.cfg.pinMap.lookup pin = none)
    (hi : i ∈ [Instr.gpioMode pin v, .gpioPull pin v, .gpioOtype pin v, .gpioSpeed pin v, .gpioAf pin v,
      .gpioWrite pin level, .gpioRead pin]) : exec i s = .next (refusedFor .badPin s) := by
  simp only [List.mem_cons, List.not_mem_nil, or_false] at hi
  obtain rfl | rfl | rfl | rfl | rfl | rfl | rfl := hi <;> exact congrArg Host.Outcome.next (onPin_none hl _)

/-- Settles O29: the decoder by `decodePin`, the operations by PIN_MAP. -/
theorem unknownPinRefused : Obligations.UnknownPinRefused := by
  unfold Obligations.UnknownPinRefused
  exact fun _ _ _ a b _ _ hn hsel => ⟨decodeCtrl_unknown hn hsel a b, fun _ => exec_gpio_unknown (lookup_unknown hn)⟩

end Sys2Proof.Machine
end

section
/-! SUPPORT. The invariant of the machine (10_state sections 2 to 7, 41_audio section 4): it reads ten components, and
each is kept by whatever writes it. -/

namespace Sys2Proof.Machine

section
variable {s t : State}

/-! ## The records of a step -/

/-- The invariant reads neither the records of a step nor the environment's data. -/
theorem MachineInv.of_records (h : MachineInv s) (ht : t = { s with
    diag := t.diag, fault := t.fault, refusal := t.refusal, hostUnits := t.hostUnits, ctrlOps := t.ctrlOps,
    sched := t.sched, draws := t.draws, reply := t.reply }) : MachineInv t := by
  rw [ht]
  exact { h with }

theorem MachineInv.returns (h : MachineInv s) (st : Status) : MachineInv (returns st s) := h.of_records rfl

theorem MachineInv.settle {r : Except Fault State} (h : MachineInv s) (hr : ∀ t, r = .ok t → MachineInv t) :
    MachineInv (settle s r) := by
  cases r with
  | ok t => exact hr t rfl
  | error k => exact h.of_records rfl

theorem MachineInv.onPin {pin : PinName} {act : PhysPin → Except Fault State} (h : MachineInv s)
    (hact : ∀ q t, act q = .ok t → MachineInv t) : MachineInv (onPin pin s act) := by
  cases hl : s.cfg.pinMap.lookup pin with
  | none =>
    rw [onPin_none hl]
    exact h.of_records rfl
  | some q =>
    rw [onPin_some hl]
    exact h.settle (hact q)

/-! ## Pins and port clocks -/

/-- The pins are in canonical form and none holds the reserved pull (10_state R35). -/
def PinsOk (g : List (PhysPin × PinFields)) : Prop := pinsWf g = true ∧ ∀ q, (lookupPin g q).pull ≠ some 0b11

section
variable {g : List (PhysPin × PinFields)} {q : PhysPin} {f : PinFields → PinFields}

/-- The change gives no pin the reserved pull (30_encoding R77). -/
def KeepsPullOk (f : PinFields → PinFields) : Prop := ∀ x : PinFields, x.pull ≠ some 0b11 → (f x).pull ≠ some 0b11

theorem PinsOk.storePin (h : PinsOk g) (hf : KeepsPullOk f) : PinsOk (storePin q (f (lookupPin g q)) g) := by
  obtain ⟨hwf, hpull⟩ := h
  refine ⟨pinsWf_storePin hwf, fun r => ?_⟩
  by_cases hr : r = q
  · rw [hr, lookupPin_storePin_same (.inl hwf)]
    exact hf _ (hpull q)
  · rw [lookupPin_storePin_other hr]
    exact hpull r

theorem keepsPullOk_setOut (level : Bool) : KeepsPullOk (PinFields.setOut level) := fun _ h => h

theorem PinsOk.latch (h : PinsOk g) (q : PhysPin) (level : Bool) : PinsOk (latch q level g) :=
  h.storePin (keepsPullOk_setOut level)

theorem PinsOk.reflectedPins (h : PinsOk g) (m : PinMap) (c : Car) : PinsOk (reflectedPins m c g) :=
  (((h.latch _ _).latch _ _).latch _ _).latch _ _

end

theorem MachineInv.pinsOk (h : MachineInv s) : PinsOk s.gpio := ⟨h.pins, h.pulls⟩

theorem MachineInv.updatePin {f : PinFields → PinFields} (h : MachineInv s) (hf : KeepsPullOk f) (q : PhysPin) :
    MachineInv (updatePin q f s) := by
  obtain ⟨hpins, hpulls⟩ := h.pinsOk.storePin (q := q) hf
  exact { h with pins := hpins, pulls := hpulls }

theorem MachineInv.enableClock (h : MachineInv s) (p : Nat) : MachineInv (enableClock p s) :=
  { h with ports := portsWf_insertPort h.ports }

theorem MachineInv.writeEnabling {f : PinFields → PinFields} {q : PhysPin} (h : MachineInv s) (hf : KeepsPullOk f)
    (hw : writeEnabling q f s = .ok t) : MachineInv t := by
  obtain rfl := Except.ok.inj hw
  exact ((h.enableClock q.port).updatePin hf q).returns .ok

theorem MachineInv.writeClocked {f : PinFields → PinFields} {q : PhysPin} (h : MachineInv s) (hf : KeepsPullOk f)
    (hw : writeClocked q f s = .ok t) : MachineInv t := by
  unfold Machine.writeClocked at hw
  split_ifs at hw
  obtain rfl := Except.ok.inj hw
  exact (h.updatePin hf q).returns .ok

/-- A pull that GPIO_PULL accepts is not the reserved one (90_conflicts C6). -/
theorem ofNat_ne_reserved_pull {v : Nat} (h : v ≤ 2) : BitVec.ofNat 2 v ≠ 0b11 := by
  interval_cases v <;> decide

/-- A configuration operation writes no reserved pull: validation comes before the write (42_gpio R190). -/
theorem ConfigSemantics.keepsPullOk {pin : PinName} {v : Nat} {i : Instr} {valid : Bool} {f : PinFields → PinFields}
    {write : PhysPin → (PinFields → PinFields) → State → Except Fault State}
    (h : ConfigSemantics pin v i valid write f) (hv : valid = true) : KeepsPullOk f := by
  cases h with
  | pull => exact fun _ _ hp => ofNat_ne_reserved_pull (of_decide_eq_true hv) (Option.some.inj hp)
  | mode | otype | speed | af => exact fun _ hx => hx

theorem ConfigSemantics.keeps_inv {pin : PinName} {v : Nat} {i : Instr} {valid : Bool} {f : PinFields → PinFields}
    {write : PhysPin → (PinFields → PinFields) → State → Except Fault State}
    (op : ConfigSemantics pin v i valid write f) (h : MachineInv s) (hx : exec i s = .next t) : MachineInv t := by
  obtain rfl := Host.Outcome.next.inj ((op.exec_eq s).symm.trans hx)
  refine h.onPin fun q t ht => ?_
  split_ifs at ht with hv
  · have hf := op.keepsPullOk hv
    cases op with
    | mode | af => exact h.writeEnabling hf ht
    | pull | otype | speed => exact h.writeClocked hf ht
  · obtain rfl := Except.ok.inj ht
    exact h.of_records rfl

theorem execGpioWrite_keeps_inv {pin : PinName} {level : Bool} (h : MachineInv s)
    (hx : exec (.gpioWrite pin level) s = .next t) : MachineInv t := by
  obtain rfl := Host.Outcome.next.inj hx
  refine h.onPin fun q t ht => ?_
  split at ht
  · cases ht
  · next u hu =>
    obtain ⟨-, rfl⟩ := writeLatch_ok hu
    obtain rfl := Except.ok.inj ht
    exact (h.updatePin (keepsPullOk_setOut level) q).returns .ok

theorem execGpioRead_keeps_inv {pin : PinName} (h : MachineInv s) (hx : exec (.gpioRead pin) s = .next t) :
    MachineInv t := by
  obtain rfl := Host.Outcome.next.inj hx
  refine h.onPin fun q t ht => ?_
  split_ifs at ht
  obtain rfl := Except.ok.inj ht
  exact h.of_records rfl

/-! ## The motor path -/

/-- A car that meets 10_state R22 and its reflection keep the invariant after boot. -/
theorem MachineInv.reflected (h : MachineInv s) {c : Car} (hc : ∀ side, MotorOk (c.motor side)) {p : Phase}
    (hp : p = s.phase ∨ p = .idle) (hb : p ≠ .boot) : MachineInv { s with
      car := c, pwm := ⟨some c.left.duty, some c.right.duty⟩, phase := p
      gpio := reflectedPins s.cfg.pinMap c s.gpio } := by
  obtain ⟨hpins, hpulls⟩ := h.pinsOk.reflectedPins s.cfg.pinMap c
  exact { h with
    motors := hc
    booting := fun hboot => absurd hboot hb
    mirrored := fun _ side => by cases side <;> rfl
    honking := fun hh => hp.elim (fun he => h.honking (he.symm.trans hh)) fun he => by cases he.symm.trans hh
    pins := hpins
    pulls := hpulls }

theorem exec_motor_keeps_inv {i : Instr} (hi : i ∈ motorOps) (hb : s.phase ≠ .boot) (h : MachineInv s)
    (hx : exec i s = .next t) : MachineInv t := by
  have hmotors : ∀ side, MotorOk (t.car.motor side) := fun side => (exec_motorMove hx side).motorOk (h.motors side)
  obtain ⟨sem, -, hsem⟩ := exec_motor hi
  obtain rfl := Host.Outcome.next.inj ((hsem s).symm.trans hx)
  by_cases hc : DirClocksOn s
  · rw [msmStep_eq hc] at hmotors ⊢
    exact (h.reflected hmotors (.inl rfl) hb).of_records rfl
  · rw [msmStep_off hc]
    exact h.of_records rfl

theorem execBootDone_keeps_inv (h : MachineInv s) (hx : exec .bootDone s = .next t) : MachineInv t := by
  by_cases hp : s.phase = .boot
  · by_cases hc : DirClocksOn s
    · obtain rfl := Host.Outcome.next.inj ((execBootDone_on hp hc).symm.trans hx)
      exact (h.reflected h.motors (.inr rfl) (by decide)).of_records rfl
    · obtain rfl := Host.Outcome.next.inj ((execBootDone_off hp hc).symm.trans hx)
      exact h.of_records rfl
  · obtain rfl := Host.Outcome.next.inj hx
    rw [if_neg hp]
    exact h.of_records rfl

/-! ## The audio path -/

theorem execLutInit_keeps_inv (h : MachineInv s) (hx : exec .lutInit s = .next t) : MachineInv t := by
  by_cases hl : s.lut = none
  · obtain rfl := Host.Outcome.next.inj ((execLutInit_first hl).symm.trans hx)
    exact { h with
      table := fun T hT => (Option.some.inj hT).symm
      armed := fun ha => ⟨rfl, (h.armed ha).2⟩ }
  · obtain rfl := Host.Outcome.next.inj ((execLutInit_again hl).symm.trans hx)
    exact h.of_records rfl

/-- Arming needs a table and gives an index (41_audio R164). -/
theorem MachineInv.armDma (h : MachineInv s) (ha : Machine.armed s = .ok t) :
    MachineInv t ∧ t.dma.state = .armed ∧ t.phase = s.phase := by
  obtain ⟨hl, ⟨hd, rfl⟩ | ⟨-, rfl⟩⟩ := armed_cases ha
  · exact ⟨h, hd, rfl⟩
  · exact ⟨{ h with
      armed := fun _ => ⟨Option.isSome_iff_ne_none.2 hl, rfl⟩
      honking := fun _ => rfl }, rfl, rfl⟩

theorem execDmaArm_keeps_inv (h : MachineInv s) (hx : exec .dmaArm s = .next t) : MachineInv t := by
  cases ha : armed s with
  | error k =>
    obtain rfl := Host.Outcome.next.inj ((execDmaArm_of_error ha).symm.trans hx)
    exact h.of_records rfl
  | ok u =>
    obtain rfl := Host.Outcome.next.inj ((execDmaArm_of_ok ha).symm.trans hx)
    exact (h.armDma ha).1.returns .ok

theorem execHonk_keeps_inv (hb : s.phase ≠ .boot) (h : MachineInv s) (hx : exec .honk s = .next t) :
    MachineInv t := by
  cases ha : armed s with
  | error k =>
    obtain rfl := Host.Outcome.next.inj ((execHonk_of_error ha).symm.trans hx)
    exact h.of_records rfl
  | ok u =>
    obtain rfl := Host.Outcome.next.inj ((execHonk_of_ok ha).symm.trans hx)
    obtain ⟨hu, hd, hp⟩ := h.armDma ha
    exact { hu with
      booting := fun hboot => by cases hboot
      mirrored := fun _ => hu.mirrored (hp ▸ hb)
      honking := fun _ => hd }

/-- The DMA may be disarmed outside a honk (41_audio R165, R173). -/
theorem MachineInv.disarmed (h : MachineInv s) (hp : s.phase ≠ .honkBusy) : MachineInv (disarmed s) :=
  { h with
    armed := fun ha => by cases ha
    honking := fun hh => absurd hh hp }

/-- The end of a honk leaves the DMA IDLE in phase IDLE (41_audio R173). -/
theorem MachineInv.honkEnd (h : MachineInv s) (hp : s.phase = .honkBusy) : MachineInv (honkEnd s) :=
  { h with
    booting := fun hboot => by cases hboot
    mirrored := fun _ => h.mirrored (by simp [hp])
    armed := fun ha => by cases ha
    honking := fun hh => by cases hh }

/-! ## The timer -/

theorem timerOk_iff {w psc arr : Nat} {t : Timer} (hp : t.psc = some psc) (ha : t.arr = some arr) :
    TimerOk w t ↔ psc < 2 ^ w ∧ 1 ≤ arr ∧ arr < 2 ^ w ∧ t.pcnt ≤ psc ∧ t.cnt ≤ arr := by
  simp only [TimerOk, hp, ha]

theorem execTimClockSet_keeps_inv {psc arr : Nat} (h : MachineInv s) (hx : exec (.timClockSet psc arr) s = .next t) :
    MachineInv t := by
  by_cases hok : timerOperandsOk s.cfg psc arr = true
  · obtain rfl := Host.Outcome.next.inj ((execTimClockSet_of_ok hok).symm.trans hx)
    obtain ⟨hpsc, hone, harr⟩ := timerOperandsOk_iff.1 hok
    exact { h with timer := ⟨hpsc, hone, harr, Nat.zero_le _, Nat.zero_le _⟩ }
  · obtain rfl := Host.Outcome.next.inj ((execTimClockSet_of_range hok).symm.trans hx)
    exact h.of_records rfl

theorem execTimStart_keeps_inv (h : MachineInv s) (hx : exec .timStart s = .next t) : MachineInv t := by
  obtain rfl := Host.Outcome.next.inj hx
  split_ifs with hn
  · exact h.of_records rfl
  · obtain ⟨hpsc, harr⟩ := not_or.1 hn
    obtain ⟨psc, hp⟩ := Option.ne_none_iff_exists'.1 hpsc
    obtain ⟨arr, ha⟩ := Option.ne_none_iff_exists'.1 harr
    have htimer : TimerOk s.cfg.timerWidth { s.tim with en := true } :=
      (timerOk_iff (t := { s.tim with en := true }) hp ha).2 ((timerOk_iff hp ha).1 h.timer)
    exact { h with timer := htimer }

/-- Counters within their periods keep the invariant. -/
theorem MachineInv.withCounters (h : MachineInv s) {psc arr pcnt cnt : Nat} (hp : s.tim.psc = some psc)
    (ha : s.tim.arr = some arr) (h1 : pcnt ≤ psc) (h2 : cnt ≤ arr) :
    MachineInv { s with tim := { s.tim with pcnt := pcnt, cnt := cnt } } := by
  obtain ⟨hpsc, hone, harr, -, -⟩ := (timerOk_iff hp ha).1 h.timer
  have htimer : TimerOk s.cfg.timerWidth { s.tim with pcnt := pcnt, cnt := cnt } :=
    (timerOk_iff (t := { s.tim with pcnt := pcnt, cnt := cnt }) hp ha).2 ⟨hpsc, hone, harr, h1, h2⟩
  exact { h with timer := htimer }

/-- A transfer of an ARMED DMA puts an entry of the table in the DAC (20_memory R55; 41_audio R149, R166). -/
theorem MachineInv.transferred (h : MachineInv s) (hd : s.dma.state = .armed) {T : Vector Nat tableLen}
    (hT : s.lut = some T) (i j : Fin tableLen) :
    MachineInv { s with dac := ⟨s.dac.en, some T[i]⟩, dma := ⟨.armed, some j⟩ } :=
  { h with
    armed := fun _ => ⟨(h.armed hd).1, rfl⟩
    honking := fun _ => rfl
    sample := fun v hv => by
      obtain rfl := Option.some.inj hv
      obtain rfl := h.table T hT
      rw [lutTable_get]
      exact lutEntry_le h.parameters i }

theorem MachineInv.tick (h : MachineInv s) (hen : s.tim.en = true) : MachineInv (tick s) := by
  obtain ⟨hpsc, harr⟩ := h.timer.configured hen
  obtain ⟨psc, hp⟩ := Option.ne_none_iff_exists'.1 hpsc
  obtain ⟨arr, ha⟩ := Option.ne_none_iff_exists'.1 harr
  obtain ⟨-, -, -, hpcnt, hcnt⟩ := (timerOk_iff hp ha).1 h.timer
  have hcleared := h.withCounters hp ha (Nat.zero_le psc) (Nat.zero_le arr)
  cases ho : overflowsNow s with
  | false =>
    obtain ⟨hlt, ht⟩ | ⟨-, hlt, ht⟩ := tick_counting hp ha ho <;> rw [ht]
    · exact h.withCounters hp ha hlt hcnt
    · exact h.withCounters hp ha (Nat.zero_le psc) hlt
  | true =>
    by_cases hd : s.dma.state = .armed
    · obtain ⟨hlut, hidx⟩ := h.armed hd
      obtain ⟨T, hT⟩ := Option.isSome_iff_exists.1 hlut
      obtain ⟨i, hi⟩ := Option.isSome_iff_exists.1 hidx
      rw [tick_overflow_armed hp ha ho hd hT hi]
      exact hcleared.transferred hd hT i (i + 1)
    · rw [tick_overflow_idle hp ha ho hd]
      exact hcleared

/-! ## Steps -/

/-- An operation taken outside a honk keeps the invariant; the operations that come as units need phase IDLE (40_motor
R105). -/
theorem exec_keeps_inv {i : Instr} (h : MachineInv s) (hbusy : s.phase ≠ .honkBusy)
    (hboot : i ∈ .honk :: motorOps → s.phase ≠ .boot) (hx : exec i s = .next t) : MachineInv t := by
  cases i with
  | drive | accelerate | brake | stop | turnLeft | turnRight | reverse =>
    exact exec_motor_keeps_inv (by simp) (hboot (by simp)) h hx
  | honk => exact execHonk_keeps_inv (hboot (by simp)) h hx
  | unrecognized u => obtain rfl := Host.Outcome.next.inj hx; exact h.of_records rfl
  | gpioMode => exact ConfigSemantics.mode.keeps_inv h hx
  | gpioPull => exact ConfigSemantics.pull.keeps_inv h hx
  | gpioOtype => exact ConfigSemantics.otype.keeps_inv h hx
  | gpioSpeed => exact ConfigSemantics.speed.keeps_inv h hx
  | gpioAf => exact ConfigSemantics.af.keeps_inv h hx
  | gpioWrite => exact execGpioWrite_keeps_inv h hx
  | gpioRead => exact execGpioRead_keeps_inv h hx
  | lutInit => exact execLutInit_keeps_inv h hx
  | dacEnable => obtain rfl := Host.Outcome.next.inj hx; exact { h with }
  | timClockSet => exact execTimClockSet_keeps_inv h hx
  | timStart => exact execTimStart_keeps_inv h hx
  | dmaArm => exact execDmaArm_keeps_inv h hx
  | dmaDisarm => obtain rfl := Host.Outcome.next.inj hx; exact (h.disarmed hbusy).returns .ok
  | bootDone => exact execBootDone_keeps_inv h hx

/-- No CTRL record is a motor operation or a HONK (30_encoding R79). -/
theorem decodeCtrl_notMem_motorOps {c : Config} {r : CtrlRecord} {i : Instr} (h : decodeCtrl c r = .ok i) :
    i ∉ .honk :: motorOps := by
  cases decodeCtrl_ok h <;> simp

theorem runMove_keeps_inv {m : Move} (h : MachineInv s) (hx : runMove m s = .next t) : MachineInv t := by
  rcases runMove_cases hx with rfl | ⟨-, hp, u, us, -, hx⟩ | ⟨-, hp, r, rs, i, -, hi, hx⟩ |
    ⟨-, -, r, rs, e, -, -, rfl⟩ | ⟨-, hp, rfl⟩ | ⟨-, hen, rfl⟩
  · exact h
  · exact exec_keeps_inv (s := { s with hostUnits := us }) (h.of_records rfl) (by simp [hp]) (fun _ => by simp [hp]) hx
  · exact exec_keeps_inv (s := { s with ctrlOps := rs }) (h.of_records rfl) hp
      (fun hm => absurd hm (decodeCtrl_notMem_motorOps hi)) hx
  · exact h.of_records rfl
  · exact h.honkEnd hp
  · exact h.tick hen

end

/-- Settles O46: by the moves, of which an operation keeps the invariant in the phases that accept it. -/
theorem stepKeepsInvariant : Obligations.StepKeepsInvariant := by
  unfold Obligations.StepKeepsInvariant
  intro s t h hx
  obtain ⟨-, -, ⟨-, rfl⟩ | ⟨m, ms, -, hm⟩⟩ := step_cases hx
  · exact h
  · exact runMove_keeps_inv (s := { s with sched := ms }) (h.of_records rfl) hm

end Sys2Proof.Machine
end

section
/-! SUPPORT. The invariant of the machine after reset (70_reset_and_hazards R260), for all parameters that meet 00_scope
R7. -/

namespace Sys2Proof.Machine

theorem machineInv_resetWith {c : Config} (h : c.wf = true) : MachineInv (State.resetWith c) where
  parameters := h
  motors side := by cases side <;> exact motorOk_halted
  booting _ := ⟨rfl, rfl⟩
  mirrored hb := absurd rfl hb
  table _ hT := by cases hT
  timer := ⟨rfl, rfl, rfl⟩
  armed ha := by cases ha
  honking hh := by cases hh
  sample _ hv := by cases hv
  pins := rfl
  ports := rfl
  pulls q := by simp [PinFields.fresh]

theorem Config.board_wf : Config.board.wf = true := by
  unfold Config.board
  split_ifs with h
  · exact h
  · decide

/-- Settles O47: `State.reset` is the reset of parameters that meet R7. -/
theorem invariantHoldsAtReset : Obligations.InvariantHoldsAtReset := by
  unfold Obligations.InvariantHoldsAtReset
  exact ⟨fun _ => machineInv_resetWith, machineInv_resetWith Config.board_wf⟩

end Sys2Proof.Machine
end
